-- ==== Sys2Proof/Word.lean ====
section
/-! DEFINITION. The word and cursor types of the MISC core (00_scope.md R8, R10, R11). -/

namespace Sys2Proof

/-- An unsigned 16-bit word, the unit of memory, registers and instruction halves (R8, R10, R17). -/
abbrev Word := BitVec 16

/-- A 17-bit cursor, holding 0 to 65536: the program counter (10_state.md R26) and stackLast (R30). -/
abbrev Cursor := BitVec 17

/-- A 6-bit operand code: bank in bits 5 to 4, index in bits 3 to 0 (30_encoding.md R62). -/
abbrev OperandCode := BitVec 6

end Sys2Proof
end

