-- ==== Sys2Proof/Syntax.lean ====
section
/-! DEFINITION. The instructions of the MISC core: one constructor for each row of opcode_table.json. -/

namespace Sys2Proof

/-- The three register banks (10_state.md R21). -/
inductive Bank where
  | r
  | s
  | t
  deriving DecidableEq, Repr

/-- One of the 48 registers: a bank and an index 0 to 15 (10_state.md R21). -/
structure RegName where
  bank  : Bank
  index : Fin 16
  deriving DecidableEq, Repr

/-- An instruction: the opcode is the constructor, and the fields its word-1 form gives it are the arguments
(30_encoding.md R63, R66). Operand codes stay as encoded, since every defined opcode checks and reads both of them
when it executes, used or not (40_pulse.md R84 to R86; log 9). Ignored bits are not part of an instruction (R70). -/
inductive Instr where
  /-- Opcode 0 (R100). -/
  | nop (c1 c2 : OperandCode)
  /-- Opcode 1 (R110): `c1` names the value, `c2` the address. -/
  | storeWord (c1 c2 : OperandCode)
  /-- Opcode 2 (R121): destination `c1`, sources `c2` and `c3`. -/
  | nandReg (c1 c2 c3 : OperandCode)
  /-- Opcode 3 (R122): destination `c1`, source `c2`, literal `imm`. -/
  | nandConst (c1 c2 : OperandCode) (imm : Word)
  /-- Opcode 4 (R123): destination `c1`, source `c2`. -/
  | notReg (c1 c2 : OperandCode)
  /-- Opcode 5 (R124): destination `c1`, literal `imm`; `c2` is checked, unused. -/
  | notConst (c1 c2 : OperandCode) (imm : Word)
  /-- Opcode 6 (R143). -/
  | branchEqual (c1 c2 : OperandCode) (target : Word)
  /-- Opcode 7 (R144). -/
  | branchNotEqual (c1 c2 : OperandCode) (target : Word)
  /-- Opcode 8 (R145). -/
  | branchLess (c1 c2 : OperandCode) (target : Word)
  /-- Opcode 9 (R146). -/
  | branchGreater (c1 c2 : OperandCode) (target : Word)
  /-- Opcode 10 (R147); `c1` and `c2` are checked, unused. -/
  | jump (c1 c2 : OperandCode) (target : Word)
  /-- Opcode 11 (R111): destination `c1`; `c2` names the address. -/
  | loadWord (c1 c2 : OperandCode)
  /-- Opcode 12 (R148); `c1` and `c2` are checked, unused. -/
  | ret (c1 c2 : OperandCode)
  /-- Opcode 13 (R101): nothing of it is decoded but the opcode. -/
  | undefined13
  /-- Opcode 14 (R101). -/
  | undefined14
  /-- Opcode 15 (R101). -/
  | undefined15
  deriving DecidableEq, Repr

end Sys2Proof
end

