-- ==== Sys2Proof/WellFormed.lean ====
section
/-! DEFINITION. The operand checks of an instruction: the "checks" entry of its opcode-table row (30_encoding.md R69). -/

namespace Sys2Proof

/-- Bits 5 to 4 of an operand code, which select the bank (30_encoding.md R62). -/
def OperandCode.bankBits (c : OperandCode) : BitVec 2 := c.extractLsb' 4 2

/-- Bits 3 to 0 of an operand code, the register's index (30_encoding.md R62). -/
def OperandCode.indexBits (c : OperandCode) : BitVec 4 := c.extractLsb' 0 4

/-- An operand code names a register unless its bank bits are 0b11 (30_encoding.md R62). -/
def OperandCode.valid (c : OperandCode) : Bool := c.bankBits != 3#2

/-- What an instruction can fail on, in the order in which 40_pulse.md R90 looks. -/
inductive Rejection where
  /-- The opcode is 13, 14 or 15 (R68). -/
  | undefinedOpcode
  /-- Bank 0b11 in operand1 (R84). -/
  | invalidOperand1
  /-- Bank 0b11 in operand2 (R85). -/
  | invalidOperand2
  /-- Bank 0b11 in operand3 of NAND_REG (R121). -/
  | invalidOperand3
  deriving DecidableEq, Repr

/-- The check shared by all defined opcodes: operand1, then operand2 (30_encoding.md R69, 40_pulse.md R90). -/
def rejectOperands (c1 c2 : OperandCode) : Option Rejection :=
  if !c1.valid then some .invalidOperand1
  else if !c2.valid then some .invalidOperand2
  else none

/-- The first check an instruction fails, if any (30_encoding.md R68, R69; order of 40_pulse.md R90). -/
def Instr.rejection : Instr → Option Rejection
  | .nop c1 c2 => rejectOperands c1 c2
  | .storeWord c1 c2 => rejectOperands c1 c2
  | .nandReg c1 c2 c3 => (rejectOperands c1 c2).or (if !c3.valid then some .invalidOperand3 else none)
  | .nandConst c1 c2 _ => rejectOperands c1 c2
  | .notReg c1 c2 => rejectOperands c1 c2
  | .notConst c1 c2 _ => rejectOperands c1 c2
  | .branchEqual c1 c2 _ => rejectOperands c1 c2
  | .branchNotEqual c1 c2 _ => rejectOperands c1 c2
  | .branchLess c1 c2 _ => rejectOperands c1 c2
  | .branchGreater c1 c2 _ => rejectOperands c1 c2
  | .jump c1 c2 _ => rejectOperands c1 c2
  | .loadWord c1 c2 => rejectOperands c1 c2
  | .ret c1 c2 => rejectOperands c1 c2
  | .undefined13 => some .undefinedOpcode
  | .undefined14 => some .undefinedOpcode
  | .undefined15 => some .undefinedOpcode

/-- A well-formed instruction is "a defined instruction" of 30_encoding.md R71: opcode 0 to 12 and every checked
operand code valid. -/
def Instr.wellFormed (i : Instr) : Bool := i.rejection.isNone

end Sys2Proof
end

