-- ==== Sys2Proof/Decode.lean ====
section
/-! DEFINITION. Decoding a word pair (30_encoding.md R61 to R74), its rejections by name, and the encoder. -/

namespace Sys2Proof

/-- w0[15:12] (30_encoding.md R61). -/
def opcodeField (w0 : Word) : BitVec 4 := w0.extractLsb' 12 4

/-- c1 = w0[11:6] (R61). -/
def operand1Field (w0 : Word) : OperandCode := w0.extractLsb' 6 6

/-- c2 = w0[5:0] (R61). -/
def operand2Field (w0 : Word) : OperandCode := w0.extractLsb' 0 6

/-- c3 = w1[15:10], the REG form of word 1 (R63). -/
def operand3Field (w1 : Word) : OperandCode := w1.extractLsb' 10 6

/-- The instruction a word pair is: the opcode field alone selects the row, and the row alone says what w1 means
(30_encoding.md R63, R66, R74). Total on all pairs (R71). The field has four bits, so the last arm is opcode 15. -/
def decode (w0 w1 : Word) : Instr :=
  let c1 := operand1Field w0
  let c2 := operand2Field w0
  match (opcodeField w0).toNat with
  | 0 => .nop c1 c2
  | 1 => .storeWord c1 c2
  | 2 => .nandReg c1 c2 (operand3Field w1)
  | 3 => .nandConst c1 c2 w1
  | 4 => .notReg c1 c2
  | 5 => .notConst c1 c2 w1
  | 6 => .branchEqual c1 c2 w1
  | 7 => .branchNotEqual c1 c2 w1
  | 8 => .branchLess c1 c2 w1
  | 9 => .branchGreater c1 c2 w1
  | 10 => .jump c1 c2 w1
  | 11 => .loadWord c1 c2
  | 12 => .ret c1 c2
  | 13 => .undefined13
  | 14 => .undefined14
  | _ => .undefined15

/-- The class of a word pair (30_encoding.md R71): a defined instruction, or the name of the check it fails. -/
def classify (w0 w1 : Word) : Except Rejection Instr :=
  match (decode w0 w1).rejection with
  | none => .ok (decode w0 w1)
  | some why => .error why

/-- w0 = opc:c1:c2 (30_encoding.md R61, R73). -/
def packWord0 (opc : BitVec 4) (c1 c2 : OperandCode) : Word := opc ++ c1 ++ c2

/-- w1 of the REG form, its ignored bits 0 (30_encoding.md R73). -/
def packOperand3 (c3 : OperandCode) : Word := c3 ++ 0#10

/-- The word pair of an instruction, with 0 in every ignored bit (30_encoding.md R73). -/
def encode : Instr → Word × Word
  | .nop c1 c2 => (packWord0 0#4 c1 c2, 0)
  | .storeWord c1 c2 => (packWord0 1#4 c1 c2, 0)
  | .nandReg c1 c2 c3 => (packWord0 2#4 c1 c2, packOperand3 c3)
  | .nandConst c1 c2 imm => (packWord0 3#4 c1 c2, imm)
  | .notReg c1 c2 => (packWord0 4#4 c1 c2, 0)
  | .notConst c1 c2 imm => (packWord0 5#4 c1 c2, imm)
  | .branchEqual c1 c2 target => (packWord0 6#4 c1 c2, target)
  | .branchNotEqual c1 c2 target => (packWord0 7#4 c1 c2, target)
  | .branchLess c1 c2 target => (packWord0 8#4 c1 c2, target)
  | .branchGreater c1 c2 target => (packWord0 9#4 c1 c2, target)
  | .jump c1 c2 target => (packWord0 10#4 c1 c2, target)
  | .loadWord c1 c2 => (packWord0 11#4 c1 c2, 0)
  | .ret c1 c2 => (packWord0 12#4 c1 c2, 0)
  | .undefined13 => (packWord0 13#4 0 0, 0)
  | .undefined14 => (packWord0 14#4 0 0, 0)
  | .undefined15 => (packWord0 15#4 0 0, 0)

/-- The word pair of an instruction given as one number the way opcode_table.json numbers it: w0:w1, w0 in bits 31 to
16 and w1 in bits 15 to 0 (30_encoding.md R66; log 2). A number of fewer than 32 bits holds the pair's first bits, and
the rest are 0. -/
def tablePair (nbits w : Nat) : Word × Word :=
  let pair := BitVec.ofNat 32 (w <<< (32 - nbits))
  (pair.extractLsb' 16 16, pair.extractLsb' 0 16)

/-- The instruction the decoder reads from a table word; the decoder refuses no pair (30_encoding.md R71). -/
def decodeTableWord (nbits w : Nat) : Option Instr :=
  some (decode (tablePair nbits w).1 (tablePair nbits w).2)

end Sys2Proof
end

