-- ==== Sys2Proof/Config.lean ====
section
/-! DEFINITION. What this hardware fixes (00_scope.md R8, R9), the loader's named parameter (20_memory.md R40), and
the free values of the state after a fatal error (60_exceptions.md R172). -/

namespace Sys2Proof.Config

/-- Size of the memory in words; valid addresses are 0 to 65535 (20_memory.md R41). -/
abbrev memWords : Nat := 65536

/-- The stack base, a constant (10_state.md R29). -/
abbrev stackFirst : Cursor := 0

/-- The address of the first instruction after RESET (10_state.md R35). -/
abbrev resetPc : Cursor := 0

/-- The offset of a LOAD that names none (70_reset_and_hazards.md R190, 20_memory.md R47). -/
abbrev loadOffset : Nat := 0

/-- What a memory word that nothing has written reads as (10_state.md R35, R36). -/
def unwritten : Word := 0

/-- The instruction length in words (30_encoding.md R60). -/
abbrev instrWords : Nat := 2

/-- The two byte orders an image outside the core may have (20_memory.md R40). -/
inductive ByteOrder where
  | big
  | little
  deriving DecidableEq, Repr

/-- The parameter `IMAGE_BYTE_ORDER` of a model of the loader, and its default (R40, decision D8; log 15). -/
abbrev imageByteOrder : ByteOrder := .big

/-- FREE VALUE (log 3): the content of register `index` of bank number `bank` after the fatal error numbered `draw`. -/
opaque freeRegister (draw bank index : Nat) : Word

/-- FREE VALUE (log 3): the memory writes, over an empty memory, that make up memory after the fatal error numbered
`draw`. Every memory is reached by some such list. -/
opaque freeCells (draw : Nat) : List (Nat × Word)

/-- FREE VALUE (log 3, 6): what the program counter holds after the fatal error numbered `draw`. -/
opaque freePc (draw : Nat) : Nat

/-- FREE VALUE (log 3, 6): what stackLast holds after the fatal error numbered `draw`. -/
opaque freeStackLast (draw : Nat) : Nat

end Sys2Proof.Config
end

