-- ==== Sys2Proof/Machine/State.lean ====
section
/-! DEFINITION. The architectural state of the MISC core (10_state.md R20), the reasons a step can stop, and reset. -/

namespace Sys2Proof.Machine

open Sys2Proof

/-- The fatal errors the core raises (60_exceptions.md R170, R171). StackUnderflow is never raised (R174), so it is no
value of the fault latch (10_state.md R20). -/
inductive ErrorKind where
  /-- An operand code with bank bits 0b11. -/
  | invalidOperand
  /-- An instruction fetch or a push at or beyond address 65536. -/
  | outOfBounds
  /-- Opcode 13, 14 or 15. -/
  | undefined
  deriving DecidableEq, Repr

/-- Why a step answers no next state. -/
inductive Fault where
  /-- Raised by `step` alone, when the fault latch already holds `kind` as the pulse begins: "A faulted core does not
  step" (40_pulse.md R80). Safe: the pulse changes no state, and no claim is made past it (log 5). -/
  | latched (kind : ErrorKind)
  deriving DecidableEq, Repr

/-- Why an instruction has no meaning in the model. -/
inductive Refusal where
  /-- Raised by an arm of `exec` whose instruction is not modelled; no arm is left so. Safe: the model stops. -/
  | notModelled (mnemonic : String)
  deriving DecidableEq, Repr

/-- The register file: three banks of sixteen words (10_state.md R21). -/
structure RegFile where
  r : Vector Word 16
  s : Vector Word 16
  t : Vector Word 16
  deriving DecidableEq, Repr

/-- The 65536 words of memory (20_memory.md R41) as (address, word) cells in canonical form (`Memory.wf`): an address
that is not listed reads as `Config.unwritten`. A cell is a word because an address names a word (R40, R41; log 1). -/
abbrev Memory := List (Nat × Word)

/-- The state of the core (10_state.md R20). The stack base `stackFirst` is a constant (`State.stackFirst`). -/
structure State where
  /-- The 48 registers (R21). -/
  regs : RegFile
  /-- The memory, code, data and return stack together (R29, 20_memory.md R41). -/
  mem : Memory
  /-- Word address of the next instruction, 0 to 65536 (R26). -/
  pc : Cursor
  /-- Index of the first free stack slot, 0 to 65536 (R29, R30); SNAPSHOT's stackTop. -/
  stackLast : Cursor
  /-- The fault latch; `none` is NONE (R28). -/
  fault : Option ErrorKind
  /-- The model's own, not the spec's: how many free states have been drawn (log 4). -/
  draws : Nat
  deriving DecidableEq, Repr

/-- Every register 0x0000 (10_state.md R35). -/
def RegFile.zero : RegFile :=
  { r := Vector.replicate 16 0, s := Vector.replicate 16 0, t := Vector.replicate 16 0 }

/-- The state after RESET and at power-on (10_state.md R35, R36); `draws` is the model's own (log 4). -/
def State.reset : State :=
  { regs := RegFile.zero, mem := [], pc := Config.resetPc, stackLast := Config.stackFirst, fault := none, draws := 0 }

end Sys2Proof.Machine
end

