-- ==== Sys2Proof/Machine/Ops.lean ====
section
/-! DEFINITION. The named operations over registers, memory, the stack and the program counter, and raising a fatal
error. -/

namespace Sys2Proof.Machine

open Sys2Proof

/-- The outcome of an instruction or a step. -/
abbrev Result := Host.Outcome State Fault Refusal

/-! ### Memory (20_memory.md) -/

/-- The word at an address; one that is not listed reads as `Config.unwritten` (10_state.md R35, R36). -/
def Memory.read : Memory → Nat → Word
  | [], _ => Config.unwritten
  | (k, x) :: rest, a => if k = a then x else Memory.read rest a

/-- Memory with the word `v` at address `a`, keeping the canonical form. -/
def Memory.write : Memory → Nat → Word → Memory
  | [], a, v => if v = Config.unwritten then [] else [(a, v)]
  | (k, x) :: rest, a, v =>
    if a < k then (if v = Config.unwritten then (k, x) :: rest else (a, v) :: (k, x) :: rest)
    else if a = k then (if v = Config.unwritten then rest else (a, v) :: rest)
    else (k, x) :: Memory.write rest a v

/-- The canonical form: addresses strictly rising, all of them valid (R41), and no cell holding what an unlisted
address reads as. Equal memories are then equal lists. -/
abbrev Memory.wf (m : Memory) : Prop :=
  m.Pairwise (fun x y => x.1 < y.1) ∧ ∀ c ∈ m, c.1 < Config.memWords ∧ c.2 ≠ Config.unwritten

/-- The memory made by writing the cells of a list, last first, over zeroed memory; addresses that do not exist are
passed over. -/
def Memory.ofCells : List (Nat × Word) → Memory
  | [] => []
  | (a, v) :: rest => if a < Config.memWords then (Memory.ofCells rest).write a v else Memory.ofCells rest

/-- Memory with a sequence of words written from address `a` up (70_reset_and_hazards.md R195). -/
def Memory.writeAll : Memory → Nat → List Word → Memory
  | m, _, [] => m
  | m, a, v :: rest => Memory.writeAll (m.write a v) (a + 1) rest

/-- The word of the state's memory at an address. -/
def State.word (s : State) (a : Nat) : Word := s.mem.read a

/-- `MemRead(a, 1)`: out of bounds at 65536 and above (00_scope.md R14, 20_memory.md R43). -/
def memRead (a : Nat) (s : State) : Except ErrorKind Word :=
  if a < Config.memWords then .ok (s.word a) else .error .outOfBounds

/-- `MemWrite(a, 1, v)`: out of bounds at 65536 and above (00_scope.md R14, 20_memory.md R43). -/
def memWrite (a : Nat) (v : Word) (s : State) : Except ErrorKind State :=
  if a < Config.memWords then .ok { s with mem := s.mem.write a v } else .error .outOfBounds

/-! ### Registers (10_state.md R21 to R23) -/

/-- The word a register holds. -/
def RegFile.get (f : RegFile) (n : RegName) : Word :=
  match n.bank with
  | .r => f.r[n.index.val]
  | .s => f.s[n.index.val]
  | .t => f.t[n.index.val]

/-- The register file with one register overwritten. -/
def RegFile.set (f : RegFile) (n : RegName) (v : Word) : RegFile :=
  match n.bank with
  | .r => { f with r := f.r.set n.index.val v }
  | .s => { f with s := f.s.set n.index.val v }
  | .t => { f with t := f.t.set n.index.val v }

/-- The register file with a whole bank overwritten (70_reset_and_hazards.md R194). -/
def RegFile.setBank (f : RegFile) (b : Bank) (values : Vector Word 16) : RegFile :=
  match b with
  | .r => { f with r := values }
  | .s => { f with s := values }
  | .t => { f with t := values }

/-- `x[B,i]` (00_scope.md R13). -/
def State.reg (s : State) (n : RegName) : Word := s.regs.get n

/-- `x[B,i] <- v` (00_scope.md R13). -/
def State.setReg (s : State) (n : RegName) (v : Word) : State := { s with regs := s.regs.set n v }

/-! ### Program counter (10_state.md R26) -/

/-- The automatic advance `pc <- PC0 + 2` (40_pulse.md R88). It is exact whenever a fetch succeeded (log 7). -/
def State.advance (s : State) : State := { s with pc := s.pc + 2 }

/-- `pc <- target`, which suppresses the automatic advance (00_scope.md R15, 44_control_flow.md R140). -/
def State.jumpTo (s : State) (target : Word) : State := { s with pc := target.setWidth 17 }

/-- PC0 as a word, the value a taken branch pushes (44_control_flow.md R141). It is exact whenever a fetch succeeded
(log 7). -/
def State.pcWord (s : State) : Word := s.pc.setWidth 16

/-! ### The return-address stack (10_state.md R29, R30) -/

/-- The stack base: the constant 0 in every state (10_state.md R29). -/
def State.stackFirst (_ : State) : Cursor := Config.stackFirst

/-- `Push(v)` (44_control_flow.md R141). -/
def push (v : Word) (s : State) : Except ErrorKind State :=
  if Config.memWords ≤ s.stackLast.toNat then .error .outOfBounds
  else match memWrite s.stackLast.toNat v s with
    | .error e => .error e
    | .ok t => .ok { t with stackLast := s.stackLast + 1 }

/-- The slot `Pop()` reads: one below stackLast, or stackLast itself on an empty stack (44_control_flow.md R142). -/
def State.popSlot (s : State) : Cursor :=
  if s.stackFirst < s.stackLast then s.stackLast - 1 else s.stackLast

/-- `Pop()`: decrement first unless the stack is empty, then read (44_control_flow.md R142, conflict C3). -/
def pop (s : State) : Except ErrorKind (Word × State) :=
  match memRead s.popSlot.toNat s with
  | .error e => .error e
  | .ok v => .ok (v, { s with stackLast := s.popSlot })

/-! ### Raising a fatal error (60_exceptions.md R172) -/

/-- A cursor made of a free number, held to the range 0 to 65536 that the spec gives (10_state.md R26, R30; log 6). -/
def freeCursor (n : Nat) : Cursor := BitVec.ofNat 17 (n % (Config.memWords + 1))

/-- Registers that hold free values. -/
def freeRegs (draw : Nat) : RegFile :=
  { r := Vector.ofFn fun i => Config.freeRegister draw 0 i.val
    s := Vector.ofFn fun i => Config.freeRegister draw 1 i.val
    t := Vector.ofFn fun i => Config.freeRegister draw 2 i.val }

/-- A memory that holds free values, in canonical form. -/
def freeMemory (draw : Nat) : Memory := Memory.ofCells (Config.freeCells draw)

/-- The state with its registers redrawn. -/
def State.redrawRegs (s : State) : State :=
  { s with regs := freeRegs s.draws, draws := s.draws + 1 }

/-- The state with its memory redrawn. -/
def State.redrawMem (s : State) : State :=
  { s with mem := freeMemory s.draws, draws := s.draws + 1 }

/-- The state a fatal error leaves: the latch holds its kind; registers, memory, pc and stackLast are unspecified
(60_exceptions.md R172; log 3). -/
def State.latch (s : State) (e : ErrorKind) : State :=
  { regs := freeRegs s.draws
    mem := freeMemory s.draws
    pc := freeCursor (Config.freePc s.draws)
    stackLast := freeCursor (Config.freeStackLast s.draws)
    fault := some e
    draws := s.draws + 1 }

/-- `raise E` (00_scope.md R15, 60_exceptions.md R172): the pulse ends, and the fault latch holds E. -/
def raiseFatal (e : ErrorKind) (s : State) : Result := .next (s.latch e)

end Sys2Proof.Machine
end

