-- ==== Sys2Proof/Machine/Operands.lean ====
section
/-! DEFINITION. Operand codes and their resolution to registers (30_encoding.md R62, 40_pulse.md R84 to R86). -/

namespace Sys2Proof.Machine

open Sys2Proof

/-- The bank that two bank bits select; 0b11 fails and never aliases to R (30_encoding.md R62, 10_state.md R23). -/
def bankOfBits (b : BitVec 2) : Except ErrorKind Bank :=
  if b = 0 then .ok .r
  else if b = 1 then .ok .s
  else if b = 2 then .ok .t
  else .error .invalidOperand

/-- The register an operand code names (30_encoding.md R62). -/
def resolve (c : OperandCode) : Except ErrorKind RegName :=
  match bankOfBits c.bankBits with
  | .error e => .error e
  | .ok b => .ok { bank := b, index := ⟨c.indexBits.toNat, c.indexBits.isLt⟩ }

/-- The bank code of a bank (10_state.md R21). -/
def bankCode : Bank → BitVec 2
  | .r => 0
  | .s => 1
  | .t => 2

/-- The operand code that names a register (30_encoding.md R62). -/
def codeOf (n : RegName) : OperandCode := bankCode n.bank ++ BitVec.ofNat 4 n.index.val

/-- What operand1 and operand2 resolve to at the start of execution (40_pulse.md R86). -/
structure Operands where
  /-- The register operand1 names, for an instruction that writes it. -/
  dest : RegName
  /-- The value of the register operand1 names. -/
  op1 : Word
  /-- The value of the register operand2 names. -/
  op2 : Word
  deriving DecidableEq, Repr

/-- The part every defined opcode shares: check operand1, check operand2, then read both, whether or not the
instruction uses them (40_pulse.md R84, R85, R86). -/
def withOperands (c1 c2 : OperandCode) (s : State) (body : Operands → Result) : Result :=
  match resolve c1 with
  | .error e => raiseFatal e s
  | .ok r1 =>
    match resolve c2 with
    | .error e => raiseFatal e s
    | .ok r2 => body { dest := r1, op1 := s.reg r1, op2 := s.reg r2 }

/-- The register form of operand3: check it, then read it (43_alu.md R121). -/
def withOperand3 (c3 : OperandCode) (s : State) (body : Word → Result) : Result :=
  match resolve c3 with
  | .error e => raiseFatal e s
  | .ok r3 => body (s.reg r3)

end Sys2Proof.Machine
end

