-- ==== Sys2Proof/Machine/Alu.lean ====
section
/-! DEFINITION. The ALU and its four instructions (43_alu.md). -/

namespace Sys2Proof.Machine

open Sys2Proof

/-- Bitwise NAND of 16-bit words (R120). -/
def aluNand (a b : Word) : Word := ~~~(a &&& b)

/-- Bitwise NOT of a 16-bit word (R120). -/
def aluNot (a : Word) : Word := ~~~a

/-- The end of every ALU instruction: write the destination, advance the pc (R120). -/
def writeResult (o : Operands) (v : Word) (s : State) : Result := .next (s.setReg o.dest v).advance

/-- NAND_REG (R121): `x[c1] <- ~(op2 & x[c3])`, operand3 checked after operand1 and operand2. -/
def execNandReg (c1 c2 c3 : OperandCode) (s : State) : Result :=
  withOperands c1 c2 s fun o => withOperand3 c3 s fun op3 => writeResult o (aluNand o.op2 op3) s

/-- NAND_CONST (R122): `x[c1] <- ~(op2 & imm)`. -/
def execNandConst (c1 c2 : OperandCode) (imm : Word) (s : State) : Result :=
  withOperands c1 c2 s fun o => writeResult o (aluNand o.op2 imm) s

/-- NOT_REG (R123): `x[c1] <- ~op2`. -/
def execNotReg (c1 c2 : OperandCode) (s : State) : Result :=
  withOperands c1 c2 s fun o => writeResult o (aluNot o.op2) s

/-- NOT_CONST (R124): `x[c1] <- ~imm`; operand2 is checked and not used. -/
def execNotConst (c1 c2 : OperandCode) (imm : Word) (s : State) : Result :=
  withOperands c1 c2 s fun o => writeResult o (aluNot imm) s

end Sys2Proof.Machine
end

