-- ==== Sys2Proof/Machine/Flags.lean ====
section
/-! DEFINITION. The core has no flags and no condition codes (10_state.md R31). What stands in their place are the four
branch conditions, which compare two register values directly as unsigned words (44_control_flow.md R143 to R146). -/

namespace Sys2Proof.Machine

open Sys2Proof

/-- BRANCH_EQUAL's condition (44_control_flow.md R143). -/
def condEqual (op1 op2 : Word) : Bool := op1 == op2

/-- BRANCH_NOT_EQUAL's condition (44_control_flow.md R144). -/
def condNotEqual (op1 op2 : Word) : Bool := op1 != op2

/-- BRANCH_LESS's condition, unsigned (44_control_flow.md R145). -/
def condLess (op1 op2 : Word) : Bool := decide (op1.toNat < op2.toNat)

/-- BRANCH_GREATER's condition, unsigned (44_control_flow.md R146). -/
def condGreater (op1 op2 : Word) : Bool := decide (op2.toNat < op1.toNat)

end Sys2Proof.Machine
end

