-- ==== Sys2Proof/Machine/ControlFlow.lean ====
section
/-! DEFINITION. Conditional branches, JUMP and RET (44_control_flow.md). -/

namespace Sys2Proof.Machine

open Sys2Proof

/-- The shape the four branches share: taken, push PC0 and go to the target; not taken, advance
(44_control_flow.md section 2). -/
def branchWhen (taken : Bool) (target : Word) (s : State) : Result :=
  if taken then
    match push s.pcWord s with
    | .error e => raiseFatal e s
    | .ok t => .next (t.jumpTo target)
  else .next s.advance

/-- BRANCH_EQUAL (R143). -/
def execBranchEqual (c1 c2 : OperandCode) (target : Word) (s : State) : Result :=
  withOperands c1 c2 s fun o => branchWhen (condEqual o.op1 o.op2) target s

/-- BRANCH_NOT_EQUAL (R144). -/
def execBranchNotEqual (c1 c2 : OperandCode) (target : Word) (s : State) : Result :=
  withOperands c1 c2 s fun o => branchWhen (condNotEqual o.op1 o.op2) target s

/-- BRANCH_LESS (R145). -/
def execBranchLess (c1 c2 : OperandCode) (target : Word) (s : State) : Result :=
  withOperands c1 c2 s fun o => branchWhen (condLess o.op1 o.op2) target s

/-- BRANCH_GREATER (R146). -/
def execBranchGreater (c1 c2 : OperandCode) (target : Word) (s : State) : Result :=
  withOperands c1 c2 s fun o => branchWhen (condGreater o.op1 o.op2) target s

/-- JUMP (R147): `pc <- imm`, no push. -/
def execJump (c1 c2 : OperandCode) (target : Word) (s : State) : Result :=
  withOperands c1 c2 s fun _ => .next (s.jumpTo target)

/-- RET (R148): `pc <- Pop()`. -/
def execRet (c1 c2 : OperandCode) (s : State) : Result :=
  withOperands c1 c2 s fun _ =>
    match pop s with
    | .error e => raiseFatal e s
    | .ok (v, t) => .next (t.jumpTo v)

end Sys2Proof.Machine
end

