-- ==== Sys2Proof/Machine/LoadStore.lean ====
section
/-! DEFINITION. STORE_WORD and LOAD_WORD (42_load_store.md): register indirect, no offset (R112). -/

namespace Sys2Proof.Machine

open Sys2Proof

/-- STORE_WORD (R110): `MemWrite(op2, 1, op1)`. -/
def execStoreWord (c1 c2 : OperandCode) (s : State) : Result :=
  withOperands c1 c2 s fun o =>
    match memWrite o.op2.toNat o.op1 s with
    | .error e => raiseFatal e s
    | .ok t => .next t.advance

/-- LOAD_WORD (R111): `x[c1] <- MemRead(op2, 1)`. -/
def execLoadWord (c1 c2 : OperandCode) (s : State) : Result :=
  withOperands c1 c2 s fun o =>
    match memRead o.op2.toNat s with
    | .error e => raiseFatal e s
    | .ok v => .next (s.setReg o.dest v).advance

end Sys2Proof.Machine
end

