-- ==== Sys2Proof/Machine/Nop.lean ====
section
/-! DEFINITION. NOP and the undefined opcodes (41_nop_undefined.md). -/

namespace Sys2Proof.Machine

open Sys2Proof

/-- NOP (R100): operand checks, then only the pc advances. -/
def execNop (c1 c2 : OperandCode) (s : State) : Result :=
  withOperands c1 c2 s fun _ => .next s.advance

/-- Opcode 13 (R101): `raise Undefined`. -/
def execUndefined13 (s : State) : Result := raiseFatal .undefined s

/-- Opcode 14 (R101): `raise Undefined`. -/
def execUndefined14 (s : State) : Result := raiseFatal .undefined s

/-- Opcode 15 (R101): `raise Undefined`. -/
def execUndefined15 (s : State) : Result := raiseFatal .undefined s

end Sys2Proof.Machine
end

