-- ==== Sys2Proof/Machine/Dispatch.lean ====
section
/-! DEFINITION. One arm for each instruction (40_pulse.md R87). -/

namespace Sys2Proof.Machine

open Sys2Proof

/-- The rule the opcode selects, applied to a state whose pc is PC0 (40_pulse.md R87). -/
def exec (i : Instr) (s : State) : Host.Outcome State Fault Refusal :=
  match i with
  | .nop c1 c2 => Sys2Proof.Machine.execNop c1 c2 s
  | .storeWord c1 c2 => Sys2Proof.Machine.execStoreWord c1 c2 s
  | .nandReg c1 c2 c3 => Sys2Proof.Machine.execNandReg c1 c2 c3 s
  | .nandConst c1 c2 imm => Sys2Proof.Machine.execNandConst c1 c2 imm s
  | .notReg c1 c2 => Sys2Proof.Machine.execNotReg c1 c2 s
  | .notConst c1 c2 imm => Sys2Proof.Machine.execNotConst c1 c2 imm s
  | .branchEqual c1 c2 target => Sys2Proof.Machine.execBranchEqual c1 c2 target s
  | .branchNotEqual c1 c2 target => Sys2Proof.Machine.execBranchNotEqual c1 c2 target s
  | .branchLess c1 c2 target => Sys2Proof.Machine.execBranchLess c1 c2 target s
  | .branchGreater c1 c2 target => Sys2Proof.Machine.execBranchGreater c1 c2 target s
  | .jump c1 c2 target => Sys2Proof.Machine.execJump c1 c2 target s
  | .loadWord c1 c2 => Sys2Proof.Machine.execLoadWord c1 c2 s
  | .ret c1 c2 => Sys2Proof.Machine.execRet c1 c2 s
  | .undefined13 => Sys2Proof.Machine.execUndefined13 s
  | .undefined14 => Sys2Proof.Machine.execUndefined14 s
  | .undefined15 => Sys2Proof.Machine.execUndefined15 s

end Sys2Proof.Machine
end

