-- ==== Sys2Proof/Machine/Pulse.lean ====
section
/-! DEFINITION. The pulse: fetch, decode, execute (40_pulse.md R80 to R91), and placing an instruction to be run. -/

namespace Sys2Proof.Machine

open Sys2Proof

/-- Fetch the two words at pc and pc + 1; OutOfBounds if either lies outside memory (40_pulse.md R82). -/
def fetch (s : State) : Except ErrorKind (Word × Word) :=
  match memRead s.pc.toNat s with
  | .error e => .error e
  | .ok w0 =>
    match memRead (s.pc.toNat + 1) s with
    | .error e => .error e
    | .ok w1 => .ok (w0, w1)

/-- One fetch-decode-execute step of a core whose latch is NONE (40_pulse.md R81). -/
def fetchExecute (s : State) : Result :=
  match fetch s with
  | .error e => raiseFatal e s
  | .ok (w0, w1) => exec (decode w0 w1) s

/-- One pulse (40_pulse.md R80, R81): a faulted core does not step. -/
def pulse (s : State) : Result :=
  match s.fault with
  | some kind => .fault (.latched kind)
  | none => fetchExecute s

/-- The state made ready to run a given word pair next: the pair stands at pc and pc + 1, as LOAD would put it
(70_reset_and_hazards.md R195). A pc at which no pair can be fetched is moved to the reset vector, and a latched fault
is cleared, since the core would not step otherwise (log 14). -/
def State.placePair (s : State) (w0 w1 : Word) : State :=
  let pc := if s.pc.toNat + 1 < Config.memWords then s.pc else Config.resetPc
  { s with pc := pc, fault := none, mem := s.mem.writeAll pc.toNat [w0, w1] }

end Sys2Proof.Machine
end

