-- ==== Sys2Proof/Machine/Step.lean ====
section
/-! DEFINITION. The step function of the machine, and the state in which a given instruction runs next. -/

namespace Sys2Proof.Machine

open Sys2Proof

/-- One step is one pulse (40_pulse.md R81). -/
def step (s : State) : Host.Outcome State Fault Refusal := pulse s

/-- The state `s` with the instruction that opcode_table.json numbers as `w` where the next step fetches (log 2, 14). -/
def State.withFetchWord (s : State) (nbits w : Nat) : State :=
  s.placePair (tablePair nbits w).1 (tablePair nbits w).2

end Sys2Proof.Machine
end

