-- ==== Sys2Proof/Machine/HostCommands.lean ====
section
/-! DEFINITION. The five commands the host drives the block with (70_reset_and_hazards.md), and the byte order of an
image outside the core (20_memory.md R40). -/

namespace Sys2Proof.Machine

open Sys2Proof

/-- The result of a command that can fail (60_exceptions.md R171). -/
inductive ResultCode where
  | ok
  | invalidOperand
  | outOfBounds
  | undefined
  /-- Reserved; no event produces it (R174). -/
  | stackUnderflow
  deriving DecidableEq, Repr

/-- The numbers of the result codes (60_exceptions.md R171, decision D10). -/
def ResultCode.number : ResultCode → Nat
  | .ok => 0
  | .invalidOperand => 1
  | .outOfBounds => 2
  | .undefined => 3
  | .stackUnderflow => 4

/-- The result code of an error kind (60_exceptions.md R171). -/
def codeOfKind : ErrorKind → ResultCode
  | .invalidOperand => .invalidOperand
  | .outOfBounds => .outOfBounds
  | .undefined => .undefined

/-- The result of a pulse, read from the latch it leaves: OK exactly when the latch is NONE (R171, R193; log 16). -/
def codeOfLatch : Option ErrorKind → ResultCode
  | none => .ok
  | some e => codeOfKind e

/-- What SNAPSHOT shows: neither the latch nor the constant stackFirst (70_reset_and_hazards.md R196). -/
structure Snapshot where
  registers : RegFile
  memory : Memory
  pc : Cursor
  stackTop : Cursor
  deriving DecidableEq, Repr

/-- A host command with its arguments; LOAD's offset is 0 unless the host names one (70_reset_and_hazards.md R190). -/
inductive Command where
  | pulse
  | reset
  | load (words : List Word) (offset : Nat := Config.loadOffset)
  | loadRegs (bank : BitVec 2) (values : Vector Word 16)
  | snapshot
  deriving DecidableEq, Repr

/-- What a command returns (70_reset_and_hazards.md R190). -/
inductive Reply where
  /-- RESET returns nothing. -/
  | nothing
  /-- PULSE, LOAD and LOAD_REGS return a result. -/
  | result (code : ResultCode)
  /-- SNAPSHOT returns what it shows. -/
  | shown (snapshot : Snapshot)
  deriving DecidableEq, Repr

/-- RESET (R192): every piece of the spec's state to its reset value. The model's own draw counter keeps counting, so
that free values drawn later are not those drawn before (log 13). -/
def State.resetKeepingDraws (s : State) : State := { State.reset with draws := s.draws }

/-- LOAD (R195): all or nothing. While the latch is set memory stays unspecified (R206, K15; log 12). -/
def loadImage (words : List Word) (offset : Nat) (s : State) : State × ResultCode :=
  if offset + words.length ≤ Config.memWords then
    match s.fault with
    | none => ({ s with mem := s.mem.writeAll offset words }, .ok)
    | some _ => (s.redrawMem, .ok)
  else (s, .outOfBounds)

/-- LOAD_REGS (R194): bank 3 writes nothing. While the latch is set the registers stay unspecified (R194; log 12). -/
def loadRegisters (bank : BitVec 2) (values : Vector Word 16) (s : State) : State × ResultCode :=
  match bankOfBits bank with
  | .error e => (s, codeOfKind e)
  | .ok b =>
    match s.fault with
    | none => ({ s with regs := s.regs.setBank b values }, .ok)
    | some _ => (s.redrawRegs, .ok)

/-- SNAPSHOT (R196). While the latch is set it shows free values (R196, decision D19; log 12). -/
def takeSnapshot (s : State) : Snapshot :=
  { registers := s.regs, memory := s.mem, pc := s.pc, stackTop := s.stackLast }

/-- PULSE (R193): a step and its result; on a latched core the latched kind, and nothing changes. -/
def pulseCommand (s : State) : Host.Outcome (State × Reply) Fault Refusal :=
  match step s with
  | .next t => .next (t, .result (codeOfLatch t.fault))
  | .fault (.latched kind) => .next (s, .result (codeOfKind kind))
  | .refused why => .refused why

/-- One host command, an atomic transaction on the whole state (R190, R191). -/
def runCommand (c : Command) (s : State) : Host.Outcome (State × Reply) Fault Refusal :=
  match c with
  | .pulse => pulseCommand s
  | .reset => .next (s.resetKeepingDraws, .nothing)
  | .load words offset => .next ((loadImage words offset s).1, .result (loadImage words offset s).2)
  | .loadRegs bank values => .next ((loadRegisters bank values s).1, .result (loadRegisters bank values s).2)
  | .snapshot => .next (s, .shown (takeSnapshot s))

/-- A run: a finite sequence of host commands in the order the host issues them (R191, R205), with their replies. -/
def runCommands : List Command → State → Host.Outcome (State × List Reply) Fault Refusal
  | [], s => .next (s, [])
  | c :: rest, s =>
    match runCommand c s with
    | .fault why => .fault why
    | .refused why => .refused why
    | .next (t, reply) =>
      match runCommands rest t with
      | .fault why => .fault why
      | .refused why => .refused why
      | .next (u, replies) => .next (u, reply :: replies)

/-- The word two successive image bytes stand for (20_memory.md R40). -/
def wordOfBytes (order : Config.ByteOrder) (b0 b1 : BitVec 8) : Word :=
  match order with
  | .big => b0 ++ b1
  | .little => b1 ++ b0

/-- The words of an image file, "a flat sequence of 16-bit words" (20_memory.md R40); a byte left over is no word, and
such a sequence of bytes is no image (log 15). -/
def imageWords (order : Config.ByteOrder) : List (BitVec 8) → Option (List Word)
  | [] => some []
  | [_] => none
  | b0 :: b1 :: rest =>
    match imageWords order rest with
    | none => none
    | some words => some (wordOfBytes order b0 b1 :: words)

end Sys2Proof.Machine
end

