-- ==== Sys2Proof/Safety.lean ====
section
/-! DEFINITION. The terms claims about the core are made in: what raising an error means, what a state keeps, what an
instruction may change, the invariant of the state, and a safe run. -/

namespace Sys2Proof.Machine

open Sys2Proof

/-- The invariant of the state: memory is in canonical form, and pc and stackLast lie in 0 to 65536
(10_state.md R26, R30; 20_memory.md R41). -/
def State.Inv (s : State) : Prop :=
  s.mem.wf ∧ s.pc.toNat ≤ 65536 ∧ s.stackLast.toNat ≤ 65536

/-- The outcome raises the fatal error `e`: the latch of the next state holds it (60_exceptions.md R172; log 3). -/
def Raises (e : ErrorKind) (o : Result) : Prop := ∃ t, o = .next t ∧ t.fault = some e

/-- Every register holds what it held. -/
def RegsKept (s t : State) : Prop := ∀ n, t.reg n = s.reg n

/-- Every register but `d` holds what it held. -/
def RegsKeptExcept (d : RegName) (s t : State) : Prop := ∀ n, n ≠ d → t.reg n = s.reg n

/-- Every address reads as it read. -/
def MemKept (s t : State) : Prop := ∀ a, t.word a = s.word a

/-- Every address but `a` reads as it read. -/
def MemKeptExcept (a : Nat) (s t : State) : Prop := ∀ b, b ≠ a → t.word b = s.word b

/-- stackLast and the latch are as they were. -/
def CursorAndLatchKept (s t : State) : Prop := t.stackLast = s.stackLast ∧ t.fault = s.fault

/-- `t` is `s` after an instruction that writes `v` to the register `d`, advances the pc by 2, and changes nothing
else. -/
def WritesRegister (d : RegName) (v : Word) (s t : State) : Prop :=
  t.reg d = v ∧ RegsKeptExcept d s t ∧ MemKept s t ∧ CursorAndLatchKept s t ∧ t.pc = s.pc + 2

/-- `t` is `s` after a taken branch to `target`: PC0 stands as a word in the slot at stackLast, stackLast is one higher,
pc is the target, and nothing else changes (44_control_flow.md R141, section 2). -/
def TakesBranch (target : Word) (s t : State) : Prop :=
  (t.word s.stackLast.toNat).toNat = s.pc.toNat % 65536 ∧ MemKeptExcept s.stackLast.toNat s t ∧
  t.stackLast.toNat = s.stackLast.toNat + 1 ∧ t.pc.toNat = target.toNat ∧ RegsKept s t ∧ t.fault = s.fault

/-- `t` is `s` with the pc advanced by 2 and nothing else changed. -/
def OnlyAdvances (s t : State) : Prop :=
  t.pc = s.pc + 2 ∧ RegsKept s t ∧ MemKept s t ∧ CursorAndLatchKept s t

/-- What the rules of all defined opcodes have in common (their bullets "Encoding" and "Exceptions"): the opcode field
selects the row; bank 0b11 in operand1 or operand2 raises InvalidOperand; and a fetch at 65535 or above raises
OutOfBounds. `mk` is the row's constructor, given w1. -/
def CommonRule (opc : Nat) (mk : OperandCode → OperandCode → Word → Instr) : Prop :=
  (∀ w0 w1, (opcodeField w0).toNat = opc → decode w0 w1 = mk (operand1Field w0) (operand2Field w0) w1) ∧
  (∀ c1 c2 w1 s, (c1.bankBits = 3 ∨ c2.bankBits = 3) → Raises .invalidOperand (exec (mk c1 c2 w1) s)) ∧
  (∀ s, s.fault = none → 65535 ≤ s.pc.toNat → Raises .outOfBounds (step s))

/-- The rule of a conditional branch (44_control_flow.md section 2): beside the common part, not taken it only advances,
taken with room on the stack it pushes PC0 and goes to the target, and taken with stackLast at 65536 or above it raises
OutOfBounds. `cond` is the comparison of the two register values as unsigned integers. -/
def BranchRule (opc : Nat) (mk : OperandCode → OperandCode → Word → Instr) (cond : Nat → Nat → Prop) : Prop :=
  CommonRule opc mk ∧
  ∀ r1 r2 target s, s.mem.wf →
    (¬ cond (s.reg r1).toNat (s.reg r2).toNat →
      ∃ t, exec (mk (codeOf r1) (codeOf r2) target) s = .next t ∧ OnlyAdvances s t) ∧
    (cond (s.reg r1).toNat (s.reg r2).toNat → s.stackLast.toNat < 65536 →
      ∃ t, exec (mk (codeOf r1) (codeOf r2) target) s = .next t ∧ TakesBranch target s t) ∧
    (cond (s.reg r1).toNat (s.reg r2).toNat → 65536 ≤ s.stackLast.toNat →
      Raises .outOfBounds (exec (mk (codeOf r1) (codeOf r2) target) s))

/-- The condition of a conditional branch on the registers its operand codes name; false of any other instruction
(44_control_flow.md R143 to R146). -/
def takesBranch (i : Instr) (s : State) : Bool :=
  let test (c1 c2 : OperandCode) (cond : Word → Word → Bool) : Bool :=
    match resolve c1, resolve c2 with
    | .ok r1, .ok r2 => cond (s.reg r1) (s.reg r2)
    | _, _ => false
  match i with
  | .branchEqual c1 c2 _ => test c1 c2 condEqual
  | .branchNotEqual c1 c2 _ => test c1 c2 condNotEqual
  | .branchLess c1 c2 _ => test c1 c2 condLess
  | .branchGreater c1 c2 _ => test c1 c2 condGreater
  | _ => false

/-- The operand code of the register an instruction writes, if it writes one (10_state.md R24). -/
def destinationCode : Instr → Option OperandCode
  | .nandReg c1 _ _ => some c1
  | .nandConst c1 _ _ => some c1
  | .notReg c1 _ => some c1
  | .notConst c1 _ _ => some c1
  | .loadWord c1 _ => some c1
  | _ => none

/-- The address an instruction stores a word at, if it stores one: STORE_WORD's op2, or the stack slot of a taken branch
(20_memory.md R48). -/
def storeAddress (i : Instr) (s : State) : Option Nat :=
  match i with
  | .storeWord _ c2 =>
    match resolve c2 with
    | .ok r2 => some (s.reg r2).toNat
    | .error _ => none
  | _ => if takesBranch i s then some s.stackLast.toNat else none

/-- A safe run of `n` pulses: it ends in a state whose latch is NONE. -/
def SafeRun (n : Nat) (s : State) : Prop := ∃ t, Sys2Proof.core.run n s = .next t ∧ t.fault = none

end Sys2Proof.Machine
end

