-- ==== Sys2Proof/Certificates/Slice0/Obligations.lean ====
section
/-! DEFINITION. The statements about the MISC core that the provers are asked for. -/

open Sys2Proof Sys2Proof.Machine

/-! ### Encoding -/

/-- Decoding the two words of any instruction gives it back, every operand at every value (30_encoding.md R61 to R66,
R73, R74). -/
def Obligations.DecodeInvertsEncode : Prop :=
  ∀ i : Instr, decode (encode i).1 (encode i).2 = i

/-- Encoding what a word pair decodes to gives the pair back with its ignored bits 0: word 0 whole for a defined opcode
and its top four bits for an undefined one, word 1 by the form of the row (30_encoding.md R63, R66). Which bits are
ignored is decision D7 of the spec (log 17). -/
def Obligations.EncodeInvertsDecode : Prop :=
  ∀ w0 w1 : Word,
    encode (decode w0 w1) =
      (if 13 ≤ (opcodeField w0).toNat then w0 &&& 0xF000#16 else w0,
       if (opcodeField w0).toNat = 2 then w1 &&& 0xFC00#16
       else if (opcodeField w0).toNat ∈ [3, 5, 6, 7, 8, 9, 10] then w1 else 0)

/-- R61: word 0 is opc × 4096 + c1 × 64 + c2, of 4, 6 and 6 bits. -/
def Obligations.WordZeroLayout : Prop :=
  ∀ w0 : Word,
    w0.toNat = (opcodeField w0).toNat * 4096 + (operand1Field w0).toNat * 64 + (operand2Field w0).toNat

/-- R62: codes 0x00 to 0x0F name R0 to R15, 0x10 to 0x1F S0 to S15, 0x20 to 0x2F T0 to T15, and 0x30 to 0x3F fail. -/
def Obligations.OperandCodesNameRegisters : Prop :=
  ∀ (c : OperandCode),
    (∀ i : Fin 16, c.toNat = i.val → resolve c = .ok { bank := .r, index := i }) ∧
    (∀ i : Fin 16, c.toNat = 0x10 + i.val → resolve c = .ok { bank := .s, index := i }) ∧
    (∀ i : Fin 16, c.toNat = 0x20 + i.val → resolve c = .ok { bank := .t, index := i }) ∧
    (0x30 ≤ c.toNat → resolve c = .error .invalidOperand)

/-- Words written out from the spec's encodings decode to the instructions they stand for, one for each family at least
(30_encoding.md R73; 41 R100; 42 R110, R111; 43 R121, R122, R123; 44 R143, R147, R148). -/
def Obligations.SpecWordsDecode : Prop :=
  decode 0x0000 0xBEEF = .nop 0x00 0x00 ∧
  decode 0x1042 0x0000 = .storeWord 0x01 0x02 ∧
  decode 0x2440 0x4000 = .nandReg 0x11 0x00 0x10 ∧
  decode 0x3081 0xFF00 = .nandConst 0x02 0x01 0xFF00 ∧
  decode 0x4811 0x0000 = .notReg 0x20 0x11 ∧
  decode 0x58C0 0x0020 = .notConst 0x23 0x00 0x0020 ∧
  decode 0x6002 0x0008 = .branchEqual 0x00 0x02 0x0008 ∧
  decode 0xA000 0x000C = .jump 0x00 0x00 0x000C ∧
  decode 0xB8C2 0x0000 = .loadWord 0x23 0x02 ∧
  decode 0xC000 0x0000 = .ret 0x00 0x00 ∧
  decode 0xE123 0x0000 = .undefined14

/-- Every word pair is exactly one of an Undefined encoding, an InvalidOperand encoding and a defined instruction
(30_encoding.md section 3; the spec marks R71 as derived). Where several operand codes are bad, the rejection names the
first of operand1, operand2 and operand3: that order is decision D6 of the spec (40_pulse.md section 1, log 17). -/
def Obligations.EveryPairHasOneClass : Prop :=
  ∀ w0 w1 : Word,
    let opc := (opcodeField w0).toNat
    let bad1 := w0.extractLsb' 10 2 = 3#2
    let bad2 := w0.extractLsb' 4 2 = 3#2
    let bad3 := opc = 2 ∧ w1.extractLsb' 14 2 = 3#2
    (classify w0 w1 = .error .undefinedOpcode ↔ 13 ≤ opc) ∧
    (classify w0 w1 = .error .invalidOperand1 ↔ opc ≤ 12 ∧ bad1) ∧
    (classify w0 w1 = .error .invalidOperand2 ↔ opc ≤ 12 ∧ ¬ bad1 ∧ bad2) ∧
    (classify w0 w1 = .error .invalidOperand3 ↔ opc ≤ 12 ∧ ¬ bad1 ∧ ¬ bad2 ∧ bad3) ∧
    (classify w0 w1 = .ok (decode w0 w1) ↔ opc ≤ 12 ∧ ¬ bad1 ∧ ¬ bad2 ∧ ¬ bad3)

/-- Two pairs that differ only in ignored bits are the same instruction (30_encoding.md section 3). That unused bits are
ignored is decision D7 of the spec (log 17). -/
def Obligations.IgnoredBitsChangeNothing : Prop :=
  ∀ w0 v w : Word,
    ((opcodeField w0).toNat ∈ [0, 1, 4, 11, 12, 13, 14, 15] → decode w0 v = decode w0 w) ∧
    ((opcodeField w0).toNat = 2 → operand3Field v = operand3Field w → decode w0 v = decode w0 w) ∧
    (∀ u : Word, 13 ≤ (opcodeField w0).toNat → opcodeField u = opcodeField w0 → decode u v = decode w0 w)

/-! ### Reset and registers -/

/-- The state after RESET: 48 registers and 65536 words 0x0000, pc and both stack cursors 0, latch NONE, and the first
fetch at address 0 (10_state.md section 7; that reset clears the latch is decisions D4 and D14 of the spec, log 17). -/
def Obligations.ResetState : Prop :=
  (∀ n, State.reset.reg n = 0) ∧ (∀ a, State.reset.word a = 0) ∧ State.reset.pc = 0 ∧ State.reset.stackLast = 0 ∧
  State.reset.stackFirst = 0 ∧ State.reset.fault = none ∧
  fetch State.reset = .ok (State.reset.word 0, State.reset.word 1)

/-- The state after RESET meets the invariant (10_state.md section 7). -/
def Obligations.ResetMeetsInvariant : Prop := State.reset.Inv

/-- Each of the 48 registers, index 0 included, reads back the last word written to it, and a write to one register
changes no other (10_state.md section 2). -/
def Obligations.RegistersHoldAndDoNotAlias : Prop :=
  ∀ (s : State) (n : RegName) (v : Word),
    (s.setReg n v).reg n = v ∧ ∀ m, m ≠ n → (s.setReg n v).reg m = s.reg m

/-- R14: an access below 65536 reads or writes the word at its address; at 65536 and above both accesses raise
OutOfBounds. -/
def Obligations.MemoryAccesses : Prop :=
  ∀ (a : Nat) (v : Word) (s : State),
    (a < 65536 → memRead a s = .ok (s.word a)) ∧
    (a < 65536 → s.mem.wf → ∃ t, memWrite a v s = .ok t ∧ t.word a = v ∧ MemKeptExcept a s t ∧ RegsKept s t ∧
      CursorAndLatchKept s t ∧ t.pc = s.pc) ∧
    (65536 ≤ a → memRead a s = .error .outOfBounds ∧ memWrite a v s = .error .outOfBounds)

/-- Two memories in canonical form that read alike at every address are equal: the model's representation of the 65536
words is unique (log 1). -/
def Obligations.CanonicalMemoriesAreUnique : Prop :=
  ∀ m1 m2 : Memory, m1.wf → m2.wf → (∀ a, m1.read a = m2.read a) → m1 = m2

/-! ### The pulse -/

/-- A latched core does not step: the step stops with the latched kind, and PULSE returns that kind and changes nothing
(40_pulse.md section 1; the latch is decision D4 of the spec, log 5 and 17). -/
def Obligations.LatchedCoreDoesNotStep : Prop :=
  ∀ (s : State) (k : ErrorKind), s.fault = some k →
    step s = .fault (.latched k) ∧ runCommand .pulse s = .next (s, .result (codeOfKind k))

/-- R82: the fetch reads the words at pc and pc + 1, and fails with OutOfBounds exactly when one of the two addresses is
65536 or above. -/
def Obligations.FetchReadsTwoWords : Prop :=
  ∀ s : State,
    (s.pc.toNat + 1 < 65536 → fetch s = .ok (s.word s.pc.toNat, s.word (s.pc.toNat + 1))) ∧
    (65536 ≤ s.pc.toNat + 1 → fetch s = .error .outOfBounds) ∧
    (s.fault = none → 65536 ≤ s.pc.toNat + 1 → Raises .outOfBounds (step s))

/-- A step of a core that is not latched runs the instruction that the words at pc and pc + 1 decode to, on the state
itself: exec moves the pc (40_pulse.md section 1, the function `Pulse`). -/
def Obligations.StepRunsTheDecodedInstruction : Prop :=
  ∀ (s : State) (i : Instr), s.fault = none → s.pc.toNat < 65535 →
    decode (s.word s.pc.toNat) (s.word (s.pc.toNat + 1)) = i → step s = exec i s

/-- The very next step after an instruction has been placed runs it, from any state whose memory is in canonical form
(the model's choice, log 2 and 14). -/
def Obligations.PlacedInstructionRunsNext : Prop :=
  ∀ (s : State) (w : Nat) (i : Instr), s.mem.wf → decodeTableWord 32 w = some i →
    step (s.withFetchWord 32 w) = exec i (s.withFetchWord 32 w)

/-- R68: a fetched pair with opcode 13, 14 or 15 raises Undefined whatever its other 28 bits hold, and those are the
instructions of the three undefined rows. -/
def Obligations.UndefinedOpcodesRaise : Prop :=
  (∀ s w0 w1, s.fault = none → fetch s = .ok (w0, w1) → 13 ≤ (opcodeField w0).toNat → Raises .undefined (step s)) ∧
  (∀ s, Raises .undefined (exec .undefined13 s) ∧ Raises .undefined (exec .undefined14 s) ∧
    Raises .undefined (exec .undefined15 s)) ∧
  (∀ w0 w1, ((opcodeField w0).toNat = 13 → decode w0 w1 = .undefined13) ∧
    ((opcodeField w0).toNat = 14 → decode w0 w1 = .undefined14) ∧
    ((opcodeField w0).toNat = 15 → decode w0 w1 = .undefined15))

/-- R69: a fetched pair with a defined opcode raises InvalidOperand exactly when w0[11:10] or w0[5:4] is 0b11, or, for
NAND_REG, w1[15:14] is 0b11; whether or not the opcode uses the field. -/
def Obligations.InvalidOperandExactly : Prop :=
  ∀ s w0 w1, s.fault = none → fetch s = .ok (w0, w1) → (opcodeField w0).toNat ≤ 12 →
    (Raises .invalidOperand (step s) ↔
      w0.extractLsb' 10 2 = 3#2 ∨ w0.extractLsb' 4 2 = 3#2 ∨
      ((opcodeField w0).toNat = 2 ∧ w1.extractLsb' 14 2 = 3#2))

/-- Which error a pulse raises, in the spec's order, and that it raises none otherwise (40_pulse.md section 1; the order
is decision D6 of the spec and the push error D3, log 17). -/
def Obligations.ErrorsComeInOrder : Prop :=
  ∀ s : State, s.fault = none →
    (65535 ≤ s.pc.toNat → Raises .outOfBounds (step s)) ∧
    ∀ w0 w1, fetch s = .ok (w0, w1) →
      let opc := (opcodeField w0).toNat
      let bad1 := (operand1Field w0).bankBits = 3
      let bad2 := (operand2Field w0).bankBits = 3
      let bad3 := opc = 2 ∧ (operand3Field w1).bankBits = 3
      let full := takesBranch (decode w0 w1) s = true ∧ 65536 ≤ s.stackLast.toNat
      (13 ≤ opc → Raises .undefined (step s)) ∧
      (opc < 13 → bad1 → Raises .invalidOperand (step s)) ∧
      (opc < 13 → ¬ bad1 → bad2 → Raises .invalidOperand (step s)) ∧
      (opc < 13 → ¬ bad1 → ¬ bad2 → bad3 → Raises .invalidOperand (step s)) ∧
      (opc < 13 → ¬ bad1 → ¬ bad2 → ¬ bad3 → full → Raises .outOfBounds (step s)) ∧
      (opc < 13 → ¬ bad1 → ¬ bad2 → ¬ bad3 → ¬ full → s.stackLast.toNat ≤ 65536 →
        ∃ t, step s = .next t ∧ t.fault = none)

/-- Unless the opcode sets the pc (6 to 10 and 12), a completed pulse leaves pc = PC0 + 2, and that sum does not wrap
(40_pulse.md section 1; the rule for the advance is decision D18 of the spec, log 17). -/
def Obligations.OtherOpcodesAdvanceByTwo : Prop :=
  ∀ s t w0 w1, s.fault = none → fetch s = .ok (w0, w1) → step s = .next t → t.fault = none →
    (opcodeField w0).toNat ∉ [6, 7, 8, 9, 10, 12] → t.pc.toNat = s.pc.toNat + 2

/-- A step answers a next state exactly when the latch is NONE: one pulse runs one instruction, and no instruction stalls
(40_pulse.md section 1; the latch is decision D4 of the spec, log 17). -/
def Obligations.EveryPulseAnswersAState : Prop :=
  ∀ s : State, (∃ t, step s = .next t) ↔ s.fault = none

/-- Every step keeps the invariant: memory in canonical form (log 1), and pc and stackLast in 0 to 65536, after a fatal
error too (10_state.md sections 3 and 5; the ranges are decisions D1 and D3 of the spec, log 17, and that they hold of the
free values is the model's choice, log 6). -/
def Obligations.StepKeepsInvariant : Prop :=
  ∀ s t : State, s.Inv → step s = .next t → t.Inv

/-! ### The instructions -/

/-- R100: NOP changes nothing but the pc, which advances by 2; w1 is ignored. -/
def Obligations.NopOnlyAdvances : Prop :=
  CommonRule 0 (fun c1 c2 _ => .nop c1 c2) ∧
  ∀ r1 r2 s, ∃ t, exec (.nop (codeOf r1) (codeOf r2)) s = .next t ∧ OnlyAdvances s t

/-- R110: STORE_WORD stores op1 at address op2, changes no other word and no register, and advances the pc; no store is
out of bounds. Memory in canonical form is the invariant's first clause. -/
def Obligations.StoreWordStores : Prop :=
  CommonRule 1 (fun c1 c2 _ => .storeWord c1 c2) ∧
  ∀ r1 r2 s, s.mem.wf →
    ∃ t, exec (.storeWord (codeOf r1) (codeOf r2)) s = .next t ∧ t.word (s.reg r2).toNat = s.reg r1 ∧
      MemKeptExcept (s.reg r2).toNat s t ∧ RegsKept s t ∧ CursorAndLatchKept s t ∧ t.pc = s.pc + 2

/-- R111: LOAD_WORD writes the word at address op2 to the register operand1 names; no load is out of bounds. -/
def Obligations.LoadWordLoads : Prop :=
  CommonRule 11 (fun c1 c2 _ => .loadWord c1 c2) ∧
  ∀ r1 r2 s, ∃ t, exec (.loadWord (codeOf r1) (codeOf r2)) s = .next t ∧
    WritesRegister r1 (s.word (s.reg r2).toNat) s t

/-- R121: NAND_REG writes ~(op2 & op3) to the register operand1 names; operand3 is w1[15:10], and bank 0b11 in it raises
InvalidOperand. -/
def Obligations.NandRegWritesNand : Prop :=
  CommonRule 2 (fun c1 c2 w1 => .nandReg c1 c2 (w1.extractLsb' 10 6)) ∧
  (∀ r1 r2 c3 s, OperandCode.bankBits c3 = 3 → Raises .invalidOperand (exec (.nandReg (codeOf r1) (codeOf r2) c3) s)) ∧
  ∀ r1 r2 r3 s, ∃ t, exec (.nandReg (codeOf r1) (codeOf r2) (codeOf r3)) s = .next t ∧
    WritesRegister r1 (~~~(s.reg r2 &&& s.reg r3)) s t

/-- R122: NAND_CONST writes ~(op2 & imm) to the register operand1 names; imm is w1, never checked. -/
def Obligations.NandConstWritesNand : Prop :=
  CommonRule 3 (fun c1 c2 w1 => .nandConst c1 c2 w1) ∧
  ∀ r1 r2 imm s, ∃ t, exec (.nandConst (codeOf r1) (codeOf r2) imm) s = .next t ∧
    WritesRegister r1 (~~~(s.reg r2 &&& imm)) s t

/-- R123: NOT_REG writes ~op2 to the register operand1 names. -/
def Obligations.NotRegWritesComplement : Prop :=
  CommonRule 4 (fun c1 c2 _ => .notReg c1 c2) ∧
  ∀ r1 r2 s, ∃ t, exec (.notReg (codeOf r1) (codeOf r2)) s = .next t ∧ WritesRegister r1 (~~~(s.reg r2)) s t

/-- R124: NOT_CONST writes ~imm to the register operand1 names; operand2 is checked and not used. -/
def Obligations.NotConstWritesComplement : Prop :=
  CommonRule 5 (fun c1 c2 w1 => .notConst c1 c2 w1) ∧
  ∀ r1 r2 imm s, ∃ t, exec (.notConst (codeOf r1) (codeOf r2) imm) s = .next t ∧ WritesRegister r1 (~~~imm) s t

/-- BRANCH_EQUAL, BRANCH_NOT_EQUAL, BRANCH_LESS and BRANCH_GREATER compare the two registers as unsigned integers; taken,
they push PC0 and go to the target; not taken, they only advance (44_control_flow.md section 2). The error on a full stack
is decision D3 of the spec (log 17). -/
def Obligations.BranchesCompareAndPush : Prop :=
  BranchRule 6 (fun c1 c2 w1 => .branchEqual c1 c2 w1) (fun a b => a = b) ∧
  BranchRule 7 (fun c1 c2 w1 => .branchNotEqual c1 c2 w1) (fun a b => a ≠ b) ∧
  BranchRule 8 (fun c1 c2 w1 => .branchLess c1 c2 w1) (fun a b => a < b) ∧
  BranchRule 9 (fun c1 c2 w1 => .branchGreater c1 c2 w1) (fun a b => a > b)

/-- R147: JUMP sets pc to w1 and changes nothing else; it pushes nothing. -/
def Obligations.JumpSetsPc : Prop :=
  CommonRule 10 (fun c1 c2 w1 => .jump c1 c2 w1) ∧
  ∀ r1 r2 target s, ∃ t, exec (.jump (codeOf r1) (codeOf r2) target) s = .next t ∧
    t.pc.toNat = target.toNat ∧ RegsKept s t ∧ MemKept s t ∧ CursorAndLatchKept s t

/-- R148 with the Pop of R142: RET sets pc to the word one below stackLast and lowers stackLast by one; on an empty stack
it takes mem[0], leaves stackLast at 0 and raises nothing. No register and no memory word changes. -/
def Obligations.RetPopsPc : Prop :=
  CommonRule 12 (fun c1 c2 _ => .ret c1 c2) ∧
  ∀ r1 r2 s, s.stackLast.toNat ≤ 65536 →
    ∃ t, exec (.ret (codeOf r1) (codeOf r2)) s = .next t ∧
      t.pc.toNat = (s.word (s.stackLast.toNat - 1)).toNat ∧ t.stackLast.toNat = s.stackLast.toNat - 1 ∧
      RegsKept s t ∧ MemKept s t ∧ t.fault = s.fault

/-- R142: Pop lowers stackLast by one unless it is 0, reads the word at the new stackLast, and never raises. -/
def Obligations.PopDecrementsThenReads : Prop :=
  ∀ s : State, s.stackLast.toNat ≤ 65536 →
    ∃ v t, pop s = .ok (v, t) ∧ v = s.word t.stackLast.toNat ∧
      t.stackLast.toNat = (if 0 < s.stackLast.toNat then s.stackLast.toNat - 1 else 0) ∧
      RegsKept s t ∧ MemKept s t ∧ t.pc = s.pc ∧ t.fault = s.fault

/-- Push writes the word at stackLast and raises stackLast by one; at 65536 it raises OutOfBounds and writes nothing
(44_control_flow.md section 1; the bound is decision D3 of the spec, log 17). -/
def Obligations.PushWritesThenIncrements : Prop :=
  ∀ (s : State) (v : Word), s.mem.wf →
    (s.stackLast.toNat < 65536 → ∃ t, push v s = .ok t ∧ t.word s.stackLast.toNat = v ∧
      MemKeptExcept s.stackLast.toNat s t ∧ t.stackLast.toNat = s.stackLast.toNat + 1 ∧ RegsKept s t ∧
      t.pc = s.pc ∧ t.fault = s.fault) ∧
    (65536 ≤ s.stackLast.toNat → push v s = .error .outOfBounds)

/-! ### Laws over several instructions -/

/-- R125: NOT_CONST then NOT_REG on one register restores the constant, and NAND_REG and NAND_CONST give
0xFFFF - (a & b). -/
def Obligations.DoubleComplementRestores : Prop :=
  (∀ (rd r2 : RegName) (c : Word) (s : State),
    ∃ t u, exec (.notConst (codeOf rd) (codeOf r2) c) s = .next t ∧
      exec (.notReg (codeOf rd) (codeOf rd)) t = .next u ∧ u.reg rd = c) ∧
  (∀ (r1 r2 r3 : RegName) (imm : Word) (s : State),
    (∃ t, exec (.nandReg (codeOf r1) (codeOf r2) (codeOf r3)) s = .next t ∧
      (t.reg r1).toNat = 0xFFFF - (s.reg r2 &&& s.reg r3).toNat) ∧
    (∃ t, exec (.nandConst (codeOf r1) (codeOf r2) imm) s = .next t ∧
      (t.reg r1).toNat = 0xFFFF - (s.reg r2 &&& imm).toNat))

/-- STORE_WORD then LOAD_WORD through the same address register returns the stored value, for any address, any value and
any destination (42_load_store.md, LOAD_WORD's corner cases). -/
def Obligations.StoreThenLoadReturnsValue : Prop :=
  ∀ (rv ra rd : RegName) (s : State), s.mem.wf →
    ∃ t u, exec (.storeWord (codeOf rv) (codeOf ra)) s = .next t ∧
      exec (.loadWord (codeOf rd) (codeOf ra)) t = .next u ∧ u.reg rd = s.reg rv ∧
      ∀ m, m ≠ rd → u.reg m = s.reg m

/-- A taken branch pushes its own address and a RET after it restores exactly that address and stackLast, so RET resumes
at the branch itself; the slot keeps the pushed word (44_control_flow.md section 3; the spec marks R149 as derived). -/
def Obligations.RetResumesAtTheBranch : Prop :=
  ∀ (i : Instr) (s t : State) (r1 r2 : RegName), s.mem.wf → s.fault = none → s.pc.toNat < 65535 →
    takesBranch i s = true → exec i s = .next t → t.fault = none →
    ∃ u, exec (.ret (codeOf r1) (codeOf r2)) t = .next u ∧ u.pc = s.pc ∧ u.stackLast = s.stackLast ∧
      u.word s.stackLast.toNat = s.pcWord ∧ RegsKept s u

/-- A STORE_WORD is seen by the very next fetch: the words fetched at PC0 + 2 are those of memory with the store done
(20_memory.md section 4). -/
def Obligations.NextFetchSeesTheStore : Prop :=
  ∀ (r1 r2 : RegName) (s : State), s.mem.wf → s.pc.toNat + 3 < 65536 →
    ∃ t, exec (.storeWord (codeOf r1) (codeOf r2)) s = .next t ∧
      fetch t = .ok
        (if (s.reg r2).toNat = s.pc.toNat + 2 then s.reg r1 else s.word (s.pc.toNat + 2),
         if (s.reg r2).toNat = s.pc.toNat + 3 then s.reg r1 else s.word (s.pc.toNat + 3))

/-- Only NAND_REG, NAND_CONST, NOT_REG, NOT_CONST and LOAD_WORD write a register, and they write only the one operand1
names (10_state.md section 2). -/
def Obligations.OnlyOperandOneIsWritten : Prop :=
  ∀ (i : Instr) (s t : State), s.fault = none → exec i s = .next t → t.fault = none →
    ∀ n, (∀ c, destinationCode i = some c → c ≠ codeOf n) → t.reg n = s.reg n

/-- During execution only STORE_WORD and the push of a taken branch write memory, each one word at the address
`storeAddress` computes (20_memory.md section 3). -/
def Obligations.OnlyStoresAndPushesWriteMemory : Prop :=
  ∀ (i : Instr) (s t : State), s.fault = none → exec i s = .next t → t.fault = none →
    ∀ a, storeAddress i s ≠ some a → t.word a = s.word a

/-- During execution only a taken branch, which raises it by one, and RET, which lowers it by one unless it is 0, move
stackLast (10_state.md section 5). -/
def Obligations.OnlyBranchesAndRetMoveTheStack : Prop :=
  ∀ (i : Instr) (s t : State), s.fault = none → exec i s = .next t → t.fault = none →
    (takesBranch i s = true ∧ t.stackLast.toNat = s.stackLast.toNat + 1) ∨
    ((∃ c1 c2, i = .ret c1 c2) ∧ t.stackLast.toNat = s.stackLast.toNat - 1) ∨
    t.stackLast = s.stackLast

/-- A pulse that completes neither reads nor moves the model's draw counter: no free value reaches a state whose latch is
NONE (the model's choice, log 3 and 4). -/
def Obligations.CompletedPulsesUseNoFreeValue : Prop :=
  ∀ (s t : State) (n : Nat), step s = .next t → t.fault = none →
    step { s with draws := n } = .next { t with draws := n }

/-- Zeroed memory runs as NOPs: over 2k zero words k pulses only advance the pc by 2k, and if that reaches 65536 the next
pulse raises OutOfBounds (70_reset_and_hazards.md section 2; the spec marks R199 as derived). -/
def Obligations.ZeroMemoryRunsAsNops : Prop :=
  ∀ (k : Nat) (s : State), s.fault = none → s.pc.toNat + 2 * k ≤ 65536 →
    (∀ a, s.pc.toNat ≤ a → a < s.pc.toNat + 2 * k → s.word a = 0) →
    SafeRun k s ∧
    ∃ t, Sys2Proof.core.run k s = .next t ∧ t.pc.toNat = s.pc.toNat + 2 * k ∧ RegsKept s t ∧ MemKept s t ∧
      CursorAndLatchKept s t ∧
      (s.pc.toNat + 2 * k = 65536 → Raises .outOfBounds (Sys2Proof.core.run (k + 1) s))

/-- A jump to its own address leaves the state as it is for ever: the stop idiom (70_reset_and_hazards.md section 4;
decision D24 of the spec, log 17). -/
def Obligations.JumpToItselfStaysPut : Prop :=
  ∀ (k : Nat) (s : State) (r1 r2 : RegName), s.fault = none → s.pc.toNat < 65535 →
    decode (s.word s.pc.toNat) (s.word (s.pc.toNat + 1)) = .jump (codeOf r1) (codeOf r2) (BitVec.ofNat 16 s.pc.toNat) →
    Sys2Proof.core.run k s = .next s

/-! ### Host commands -/

/-- On a latch of NONE, PULSE does one step and returns OK or the error it raised; on a set latch it returns the latched
kind and changes nothing (70_reset_and_hazards.md section 1; the latch is decision D4 of the spec, log 5, 16 and 17). -/
def Obligations.PulseCommandSteps : Prop :=
  ∀ s : State,
    (s.fault = none → ∃ t, step s = .next t ∧
      (t.fault = none → runCommand .pulse s = .next (t, .result .ok)) ∧
      (∀ e, t.fault = some e → runCommand .pulse s = .next (t, .result (codeOfKind e)))) ∧
    (∀ k, s.fault = some k → runCommand .pulse s = .next (s, .result (codeOfKind k)))

/-- R174: RET on an empty stack completes, its PULSE returns OK, and no command ever returns StackUnderflow. -/
def Obligations.StackUnderflowIsNeverRaised : Prop :=
  (∀ (s : State) (r1 r2 : RegName) (w1 : Word), s.fault = none → s.stackLast = 0 →
    fetch s = .ok (packWord0 12 (codeOf r1) (codeOf r2), w1) →
    ∃ t, runCommand .pulse s = .next (t, .result .ok) ∧ t.pc.toNat = (s.word 0).toNat ∧ t.stackLast = 0) ∧
  (∀ (c : Command) (s t : State) (r : Reply), runCommand c s = .next (t, r) → r ≠ .result .stackUnderflow)

/-- RESET sets every piece of state to its reset value from any state, a latched one included, and the next PULSE runs a
NOP at address 0 (70_reset_and_hazards.md section 1; the latch is decision D14 of the spec, and that the draw counter
keeps counting is the model's choice, log 13). -/
def Obligations.ResetCommandClearsAll : Prop :=
  ∀ s : State, ∃ t u, runCommand .reset s = .next (t, .nothing) ∧ { t with draws := 0 } = State.reset ∧
    (∀ n, t.reg n = 0) ∧ (∀ a, t.word a = 0) ∧ t.pc = 0 ∧ t.stackLast = 0 ∧ t.fault = none ∧
    runCommand .pulse t = .next (u, .result .ok) ∧ u.pc = 2

/-- LOAD copies the words to `offset` and on if they fit and changes nothing else; if they do not fit it writes nothing
and returns OutOfBounds; it never sets or clears the latch; a LOAD that names no offset loads at address 0 (70_reset_and_hazards.md section 1; all-or-nothing is decision
D12 of the spec, log 17). -/
def Obligations.LoadCommandCopies : Prop :=
  ∀ (words : List Word) (offset : Nat) (s : State),
    (s.mem.wf → s.fault = none → offset + words.length ≤ 65536 →
      ∃ t, runCommand (.load words offset) s = .next (t, .result .ok) ∧
        (∀ (k : Nat) (h : k < words.length), t.word (offset + k) = words[k]) ∧
        (∀ a, a < offset ∨ offset + words.length ≤ a → t.word a = s.word a) ∧
        RegsKept s t ∧ CursorAndLatchKept s t ∧ t.pc = s.pc) ∧
    (∀ e, s.fault = some e → offset + words.length ≤ 65536 →
      ∃ t, runCommand (.load words offset) s = .next (t, .result .ok) ∧ t.fault = some e) ∧
    (65536 < offset + words.length → runCommand (.load words offset) s = .next (s, .result .outOfBounds)) ∧
    runCommand (.load words) s = runCommand (.load words 0) s

/-- LOAD_REGS sets the sixteen registers of one bank in index order and nothing else; bank 3 writes nothing and returns
InvalidOperand; it never sets or clears the latch (70_reset_and_hazards.md section 1; decision D11 of the spec, log
17). -/
def Obligations.LoadRegsSetsOneBank : Prop :=
  ∀ (values : Vector Word 16) (s : State),
    (∀ b : Bank, s.fault = none →
      ∃ t, runCommand (.loadRegs (bankCode b) values) s = .next (t, .result .ok) ∧
        (∀ i : Fin 16, t.reg { bank := b, index := i } = values[i.val]) ∧
        (∀ n, n.bank ≠ b → t.reg n = s.reg n) ∧ MemKept s t ∧ CursorAndLatchKept s t ∧ t.pc = s.pc) ∧
    (∀ (b : Bank) (e : ErrorKind), s.fault = some e →
      ∃ t, runCommand (.loadRegs (bankCode b) values) s = .next (t, .result .ok) ∧ t.fault = some e) ∧
    runCommand (.loadRegs 3 values) s = .next (s, .result .invalidOperand)

/-- SNAPSHOT shows the registers, memory, pc and stackLast of the state and changes nothing
(70_reset_and_hazards.md section 1; decision D19 of the spec for a latched core, log 12). -/
def Obligations.SnapshotShowsTheState : Prop :=
  ∀ s : State, ∃ v, runCommand .snapshot s = .next (s, .shown v) ∧ (∀ n, v.registers.get n = s.reg n) ∧
    (∀ a, v.memory.read a = s.word a) ∧ v.pc = s.pc ∧ v.stackTop = s.stackLast

/-- No sequence of commands without a RESET clears or changes a set latch (10_state.md section 4; the latch is decision D4
of the spec, log 17). -/
def Obligations.OnlyResetClearsTheLatch : Prop :=
  ∀ (cs : List Command) (s t : State) (k : ErrorKind) (rs : List Reply), s.fault = some k → .reset ∉ cs →
    runCommands cs s = .next (t, rs) → t.fault = some k

/-- Every run of host commands answers a state, one reply for each command, and keeps the invariant
(70_reset_and_hazards.md section 1; log 1, 6 and 17 as for a step). -/
def Obligations.CommandRunsKeepInvariant : Prop :=
  ∀ (cs : List Command) (s : State), s.Inv →
    ∃ t rs, runCommands cs s = .next (t, rs) ∧ rs.length = cs.length ∧ t.Inv

/-- The result codes are OK 0, InvalidOperand 1, OutOfBounds 2, Undefined 3 and StackUnderflow 4
(60_exceptions.md section 1; the numbers are decision D10 of the spec, log 17). -/
def Obligations.ResultCodeNumbers : Prop :=
  (codeOfLatch none).number = 0 ∧ (codeOfKind .invalidOperand).number = 1 ∧ (codeOfKind .outOfBounds).number = 2 ∧
  (codeOfKind .undefined).number = 3 ∧ ResultCode.stackUnderflow.number = 4

/-- An image of 2n bytes is n words, each with its bits 15 to 8 in the first byte under the default order
(20_memory.md section 1; the order is decision D8 of the spec, log 15 and 17). -/
def Obligations.ImageIsBigEndian : Prop :=
  Config.imageByteOrder = .big ∧
  ∀ words : List Word,
    imageWords Config.imageByteOrder (words.flatMap fun w => [w.extractLsb' 8 8, w.extractLsb' 0 8]) = some words
end

