-- ==== Sys2Proof/Laws/Decode.lean ====
section
/-! SUPPORT. The fields of a packed word, and which row a decoded pair belongs to. -/

namespace Sys2Proof

section Fields
variable (opc : BitVec 4) (c1 c2 c3 : OperandCode)

theorem opcodeField_packWord0 : opcodeField (packWord0 opc c1 c2) = opc := by
  apply BitVec.eq_of_toNat_eq
  have h1 := opc.isLt; have h2 := c1.isLt; have h3 := c2.isLt
  simp only [opcodeField, packWord0, BitVec.extractLsb'_toNat, BitVec.toNat_append, Nat.shiftLeft_eq,
    Nat.shiftRight_eq_div_pow]
  rw [← Nat.shiftLeft_eq, ← Nat.shiftLeft_eq, ← Nat.shiftLeft_add_eq_or_of_lt h2, ← Nat.shiftLeft_add_eq_or_of_lt h3]
  simp only [Nat.shiftLeft_eq]
  omega

theorem operand1Field_packWord0 : operand1Field (packWord0 opc c1 c2) = c1 := by
  apply BitVec.eq_of_toNat_eq
  have h1 := opc.isLt; have h2 := c1.isLt; have h3 := c2.isLt
  simp only [operand1Field, packWord0, BitVec.extractLsb'_toNat, BitVec.toNat_append, Nat.shiftRight_eq_div_pow]
  rw [← Nat.shiftLeft_add_eq_or_of_lt h2, ← Nat.shiftLeft_add_eq_or_of_lt h3]
  simp only [Nat.shiftLeft_eq]
  omega

theorem operand2Field_packWord0 : operand2Field (packWord0 opc c1 c2) = c2 := by
  apply BitVec.eq_of_toNat_eq
  have h1 := opc.isLt; have h2 := c1.isLt; have h3 := c2.isLt
  simp only [operand2Field, packWord0, BitVec.extractLsb'_toNat, BitVec.toNat_append, Nat.shiftRight_eq_div_pow]
  rw [← Nat.shiftLeft_add_eq_or_of_lt h2, ← Nat.shiftLeft_add_eq_or_of_lt h3]
  simp only [Nat.shiftLeft_eq]
  omega

theorem operand3Field_packOperand3 : operand3Field (packOperand3 c3) = c3 := by
  apply BitVec.eq_of_toNat_eq
  have h1 := c3.isLt
  simp only [operand3Field, packOperand3, BitVec.extractLsb'_toNat, BitVec.toNat_append, Nat.shiftRight_eq_div_pow]
  rw [← Nat.shiftLeft_add_eq_or_of_lt (by decide : (0#10).toNat < 2 ^ 10)]
  simp only [Nat.shiftLeft_eq, BitVec.toNat_ofNat]
  omega
end Fields

/-- The three fields of word 0 as numbers. -/
theorem fields_toNat (w0 : Word) :
    (opcodeField w0).toNat = w0.toNat / 4096 ∧ (operand1Field w0).toNat = w0.toNat / 64 % 64 ∧
    (operand2Field w0).toNat = w0.toNat % 64 := by
  have := w0.isLt
  simp only [opcodeField, operand1Field, operand2Field, BitVec.extractLsb'_toNat, Nat.shiftRight_eq_div_pow]
  exact ⟨by omega, trivial, by omega⟩

/-- The fields of word 0 make it up: nothing of it lies outside them (30_encoding.md R61). -/
theorem packWord0_fields (w0 : Word) : packWord0 (opcodeField w0) (operand1Field w0) (operand2Field w0) = w0 := by
  apply BitVec.eq_of_toNat_eq
  obtain ⟨ho, h1, h2⟩ := fields_toNat w0
  have := w0.isLt
  simp only [packWord0, BitVec.toNat_append]
  rw [← Nat.shiftLeft_add_eq_or_of_lt (operand1Field w0).isLt, ← Nat.shiftLeft_add_eq_or_of_lt (operand2Field w0).isLt]
  simp only [Nat.shiftLeft_eq]
  omega

/-- A number below 16 is one of sixteen. -/
theorem lt_sixteen_cases {i : Nat} (h : i < 16) : i = 0 ∨ i = 1 ∨ i = 2 ∨ i = 3 ∨ i = 4 ∨ i = 5 ∨ i = 6 ∨ i = 7 ∨
    i = 8 ∨ i = 9 ∨ i = 10 ∨ i = 11 ∨ i = 12 ∨ i = 13 ∨ i = 14 ∨ i = 15 := by omega

/-- The mask 0xF000 keeps bits 15 to 12. -/
theorem mask_opcode (w : Word) : w &&& 0xF000#16 = (w >>> 12) <<< 12 := by
  apply BitVec.eq_of_getLsbD_eq
  intro i hi
  rcases lt_sixteen_cases hi with h | h | h | h | h | h | h | h | h | h | h | h | h | h | h | h <;> subst h <;> simp

/-- The mask 0xFC00 keeps bits 15 to 10. -/
theorem mask_operand3 (w : Word) : w &&& 0xFC00#16 = (w >>> 10) <<< 10 := by
  apply BitVec.eq_of_getLsbD_eq
  intro i hi
  rcases lt_sixteen_cases hi with h | h | h | h | h | h | h | h | h | h | h | h | h | h | h | h <;> subst h <;> simp

/-- Word 0 with its operand fields cleared holds the opcode alone. -/
theorem packWord0_opcode (w0 : Word) : packWord0 (opcodeField w0) 0 0 = w0 &&& 0xF000#16 := by
  rw [mask_opcode]
  apply BitVec.eq_of_toNat_eq
  have := w0.isLt
  have hz : BitVec.toNat (0 : OperandCode) = 0 := rfl
  simp only [packWord0, opcodeField, BitVec.toNat_append, BitVec.toNat_shiftLeft, BitVec.toNat_ushiftRight,
    BitVec.extractLsb'_toNat, hz, Nat.or_zero, Nat.shiftLeft_eq, Nat.shiftRight_eq_div_pow]
  omega

/-- Word 1 of the REG form with its ignored bits cleared holds operand3 alone. -/
theorem packOperand3_field (w1 : Word) : packOperand3 (operand3Field w1) = w1 &&& 0xFC00#16 := by
  rw [mask_operand3]
  apply BitVec.eq_of_toNat_eq
  have := w1.isLt
  simp only [packOperand3, operand3Field, BitVec.toNat_append, BitVec.toNat_shiftLeft, BitVec.toNat_ushiftRight,
    BitVec.extractLsb'_toNat, BitVec.toNat_ofNat, Nat.zero_mod, Nat.or_zero, Nat.shiftLeft_eq, Nat.shiftRight_eq_div_pow]
  omega

/-- Which row a pair is: one case for each opcode, with what the pair decodes to (30_encoding.md R66). -/
theorem decode_cases (w0 w1 : Word) :
    let c1 := operand1Field w0
    let c2 := operand2Field w0
    (opcodeField w0 = 0#4 ∧ decode w0 w1 = .nop c1 c2) ∨ (opcodeField w0 = 1#4 ∧ decode w0 w1 = .storeWord c1 c2) ∨
    (opcodeField w0 = 2#4 ∧ decode w0 w1 = .nandReg c1 c2 (operand3Field w1)) ∨
    (opcodeField w0 = 3#4 ∧ decode w0 w1 = .nandConst c1 c2 w1) ∨
    (opcodeField w0 = 4#4 ∧ decode w0 w1 = .notReg c1 c2) ∨ (opcodeField w0 = 5#4 ∧ decode w0 w1 = .notConst c1 c2 w1) ∨
    (opcodeField w0 = 6#4 ∧ decode w0 w1 = .branchEqual c1 c2 w1) ∨
    (opcodeField w0 = 7#4 ∧ decode w0 w1 = .branchNotEqual c1 c2 w1) ∨
    (opcodeField w0 = 8#4 ∧ decode w0 w1 = .branchLess c1 c2 w1) ∨
    (opcodeField w0 = 9#4 ∧ decode w0 w1 = .branchGreater c1 c2 w1) ∨
    (opcodeField w0 = 10#4 ∧ decode w0 w1 = .jump c1 c2 w1) ∨ (opcodeField w0 = 11#4 ∧ decode w0 w1 = .loadWord c1 c2) ∨
    (opcodeField w0 = 12#4 ∧ decode w0 w1 = .ret c1 c2) ∨ (opcodeField w0 = 13#4 ∧ decode w0 w1 = .undefined13) ∨
    (opcodeField w0 = 14#4 ∧ decode w0 w1 = .undefined14) ∨ (opcodeField w0 = 15#4 ∧ decode w0 w1 = .undefined15) := by
  unfold decode
  generalize opcodeField w0 = opc
  revert opc
  generalize operand1Field w0 = c1
  generalize operand2Field w0 = c2
  intro opc
  have : opc = 0 ∨ opc = 1 ∨ opc = 2 ∨ opc = 3 ∨ opc = 4 ∨ opc = 5 ∨ opc = 6 ∨ opc = 7 ∨ opc = 8 ∨ opc = 9 ∨
      opc = 10 ∨ opc = 11 ∨ opc = 12 ∨ opc = 13 ∨ opc = 14 ∨ opc = 15 := by
    revert opc; decide
  rcases this with h | h | h | h | h | h | h | h | h | h | h | h | h | h | h | h <;> subst h <;> simp

end Sys2Proof
end

