-- ==== Sys2Proof/Laws/State.lean ====
section
/-! SUPPORT. One lemma for each field of State and each update of it, so that no later proof unfolds an update. -/

namespace Sys2Proof.Machine

open Sys2Proof

section Advance
variable (s : State)
@[simp] theorem advance_pc : s.advance.pc = s.pc + 2 := rfl
@[simp] theorem advance_regs : s.advance.regs = s.regs := rfl
@[simp] theorem advance_mem : s.advance.mem = s.mem := rfl
@[simp] theorem advance_stackLast : s.advance.stackLast = s.stackLast := rfl
@[simp] theorem advance_fault : s.advance.fault = s.fault := rfl
@[simp] theorem advance_draws : s.advance.draws = s.draws := rfl
end Advance

section JumpTo
variable (s : State) (target : Word)
@[simp] theorem jumpTo_pc : (s.jumpTo target).pc = target.setWidth 17 := rfl
@[simp] theorem jumpTo_regs : (s.jumpTo target).regs = s.regs := rfl
@[simp] theorem jumpTo_mem : (s.jumpTo target).mem = s.mem := rfl
@[simp] theorem jumpTo_stackLast : (s.jumpTo target).stackLast = s.stackLast := rfl
@[simp] theorem jumpTo_fault : (s.jumpTo target).fault = s.fault := rfl
@[simp] theorem jumpTo_draws : (s.jumpTo target).draws = s.draws := rfl
end JumpTo

section SetReg
variable (s : State) (n : RegName) (v : Word)
@[simp] theorem setReg_regs : (s.setReg n v).regs = s.regs.set n v := rfl
@[simp] theorem setReg_mem : (s.setReg n v).mem = s.mem := rfl
@[simp] theorem setReg_pc : (s.setReg n v).pc = s.pc := rfl
@[simp] theorem setReg_stackLast : (s.setReg n v).stackLast = s.stackLast := rfl
@[simp] theorem setReg_fault : (s.setReg n v).fault = s.fault := rfl
@[simp] theorem setReg_draws : (s.setReg n v).draws = s.draws := rfl
end SetReg

section Latch
variable (s : State) (e : ErrorKind)
@[simp] theorem latch_fault : (s.latch e).fault = some e := rfl
@[simp] theorem latch_mem : (s.latch e).mem = freeMemory s.draws := rfl
@[simp] theorem latch_regs : (s.latch e).regs = freeRegs s.draws := rfl
@[simp] theorem latch_pc : (s.latch e).pc = freeCursor (Config.freePc s.draws) := rfl
@[simp] theorem latch_stackLast : (s.latch e).stackLast = freeCursor (Config.freeStackLast s.draws) := rfl
@[simp] theorem latch_draws : (s.latch e).draws = s.draws + 1 := rfl
end Latch

section Redraw
variable (s : State)
@[simp] theorem redrawRegs_regs : s.redrawRegs.regs = freeRegs s.draws := rfl
@[simp] theorem redrawRegs_mem : s.redrawRegs.mem = s.mem := rfl
@[simp] theorem redrawRegs_pc : s.redrawRegs.pc = s.pc := rfl
@[simp] theorem redrawRegs_stackLast : s.redrawRegs.stackLast = s.stackLast := rfl
@[simp] theorem redrawRegs_fault : s.redrawRegs.fault = s.fault := rfl
@[simp] theorem redrawRegs_draws : s.redrawRegs.draws = s.draws + 1 := rfl
@[simp] theorem redrawMem_mem : s.redrawMem.mem = freeMemory s.draws := rfl
@[simp] theorem redrawMem_regs : s.redrawMem.regs = s.regs := rfl
@[simp] theorem redrawMem_pc : s.redrawMem.pc = s.pc := rfl
@[simp] theorem redrawMem_stackLast : s.redrawMem.stackLast = s.stackLast := rfl
@[simp] theorem redrawMem_fault : s.redrawMem.fault = s.fault := rfl
@[simp] theorem redrawMem_draws : s.redrawMem.draws = s.draws + 1 := rfl
end Redraw

section Reset
variable (s : State)
@[simp] theorem reset_regs : State.reset.regs = RegFile.zero := rfl
@[simp] theorem reset_mem : State.reset.mem = [] := rfl
@[simp] theorem reset_pc : State.reset.pc = 0 := rfl
@[simp] theorem reset_stackLast : State.reset.stackLast = 0 := rfl
@[simp] theorem reset_fault : State.reset.fault = none := rfl
@[simp] theorem resetKeepingDraws_regs : s.resetKeepingDraws.regs = RegFile.zero := rfl
@[simp] theorem resetKeepingDraws_mem : s.resetKeepingDraws.mem = [] := rfl
@[simp] theorem resetKeepingDraws_pc : s.resetKeepingDraws.pc = 0 := rfl
@[simp] theorem resetKeepingDraws_stackLast : s.resetKeepingDraws.stackLast = 0 := rfl
@[simp] theorem resetKeepingDraws_fault : s.resetKeepingDraws.fault = none := rfl
@[simp] theorem resetKeepingDraws_draws : s.resetKeepingDraws.draws = s.draws := rfl
end Reset

section Views
variable (s t : State)
/-- The stack base is the constant 0 in every state. -/
@[simp] theorem stackFirst_eq : s.stackFirst = 0 := rfl

/-- Reading a register looks at the register file alone. -/
theorem reg_congr {s t : State} (h : t.regs = s.regs) (n : RegName) : t.reg n = s.reg n := by
  simp [State.reg, h]

/-- Reading a word looks at the memory alone. -/
theorem word_congr {s t : State} (h : t.mem = s.mem) (a : Nat) : t.word a = s.word a := by
  simp [State.word, h]

@[simp] theorem advance_reg (n : RegName) : s.advance.reg n = s.reg n := rfl
@[simp] theorem advance_word (a : Nat) : s.advance.word a = s.word a := rfl
@[simp] theorem jumpTo_reg (w : Word) (n : RegName) : (s.jumpTo w).reg n = s.reg n := rfl
@[simp] theorem jumpTo_word (w : Word) (a : Nat) : (s.jumpTo w).word a = s.word a := rfl
@[simp] theorem setReg_word (n : RegName) (v : Word) (a : Nat) : (s.setReg n v).word a = s.word a := rfl
end Views

end Sys2Proof.Machine
end

