-- ==== Sys2Proof/Laws/Memory.lean ====
section
/-! SUPPORT. Memory: read after write, and the canonical form that every memory operation keeps. -/

namespace Sys2Proof.Machine

open Sys2Proof

@[simp] theorem read_nil (a : Nat) : Memory.read [] a = Config.unwritten := rfl

/-- An address below every listed one is not listed. -/
theorem read_of_lt_all {m : Memory} {a : Nat} (h : ∀ c ∈ m, a < c.1) : Memory.read m a = Config.unwritten := by
  induction m with
  | nil => rfl
  | cons c m ih =>
    obtain ⟨k, x⟩ := c
    have hk : a < k := h (k, x) (by simp)
    rw [Memory.read, if_neg (by omega)]
    exact ih fun c hc => h c (List.mem_cons_of_mem _ hc)

/-- In a memory in canonical form, the tail lists only addresses above the head's. -/
theorem wf_tail {c : Nat × Word} {m : Memory} (h : Memory.wf (c :: m)) :
    Memory.wf m ∧ (∀ d ∈ m, c.1 < d.1) ∧ c.1 < 65536 ∧ c.2 ≠ Config.unwritten := by
  obtain ⟨hp, hc⟩ := h
  rw [List.pairwise_cons] at hp
  exact ⟨⟨hp.2, fun d hd => hc d (List.mem_cons_of_mem _ hd)⟩, hp.1, hc c (by simp)⟩

theorem wf_cons {c : Nat × Word} {m : Memory} (hm : Memory.wf m) (hlt : ∀ d ∈ m, c.1 < d.1)
    (ha : c.1 < 65536) (hv : c.2 ≠ Config.unwritten) : Memory.wf (c :: m) := by
  refine ⟨List.pairwise_cons.2 ⟨hlt, hm.1⟩, fun d hd => ?_⟩
  rcases List.mem_cons.1 hd with rfl | hd
  · exact ⟨ha, hv⟩
  · exact hm.2 d hd

/-- The word just written is read back. -/
theorem read_write_same {m : Memory} (h : m.wf) (a : Nat) (v : Word) : (m.write a v).read a = v := by
  induction m with
  | nil => by_cases hv : v = Config.unwritten <;> simp [Memory.write, Memory.read, hv]
  | cons c m ih =>
    obtain ⟨k, x⟩ := c
    obtain ⟨hm, hlt, -⟩ := wf_tail h
    have hnone (hak : a ≤ k) : Memory.read m a = Config.unwritten :=
      read_of_lt_all fun d hd => Nat.lt_of_le_of_lt hak (hlt d hd)
    by_cases h1 : a < k
    · have hka : ¬ k = a := by omega
      by_cases hv : v = Config.unwritten <;> simp [Memory.write, Memory.read, h1, hv, hka, hnone (by omega)]
    · by_cases h2 : a = k
      · by_cases hv : v = Config.unwritten <;> simp [Memory.write, Memory.read, h2, hv]
        simpa [h2] using hnone (by omega)
      · have hka : ¬ k = a := by omega
        simp [Memory.write, Memory.read, h1, h2, hka, ih hm]

/-- A write leaves every other address as it reads. -/
theorem read_write_other {a b : Nat} (hab : b ≠ a) (v : Word) (m : Memory) : (m.write a v).read b = m.read b := by
  induction m with
  | nil => by_cases hv : v = Config.unwritten <;> simp [Memory.write, Memory.read, hv, hab.symm]
  | cons c m ih =>
    obtain ⟨k, x⟩ := c
    by_cases h1 : a < k
    · by_cases hv : v = Config.unwritten <;> simp [Memory.write, Memory.read, h1, hv, hab.symm]
    · by_cases h2 : a = k
      · subst h2
        by_cases hv : v = Config.unwritten <;> simp [Memory.write, Memory.read, hv, hab.symm]
      · simp only [Memory.write, if_neg h1, if_neg h2, Memory.read, ih]

/-- The cells of a written memory are the cell written or cells there before. -/
theorem mem_write {m : Memory} {a : Nat} {v : Word} {d : Nat × Word} (h : d ∈ m.write a v) :
    (d = (a, v) ∧ v ≠ Config.unwritten) ∨ d ∈ m := by
  induction m with
  | nil =>
    by_cases hv : v = Config.unwritten <;> simp [Memory.write, hv] at h
    exact .inl ⟨h, hv⟩
  | cons c m ih =>
    obtain ⟨k, x⟩ := c
    by_cases hv : v = Config.unwritten <;> by_cases h1 : a < k <;> by_cases h2 : a = k <;>
      simp [Memory.write, h1, h2, hv] at h ⊢ <;> grind

/-- A write at a valid address keeps the canonical form. -/
theorem write_wf {m : Memory} (h : m.wf) {a : Nat} (ha : a < 65536) (v : Word) : (m.write a v).wf := by
  induction m with
  | nil =>
    by_cases hv : v = Config.unwritten
    · simpa [Memory.write, hv] using h
    · simp [Memory.write, hv, Memory.wf, ha]
  | cons c m ih =>
    obtain ⟨k, x⟩ := c
    obtain ⟨hm, hlt, hk, hx⟩ := wf_tail h
    by_cases h1 : a < k
    · by_cases hv : v = Config.unwritten
      · simpa [Memory.write, h1, hv] using h
      · have hall : ∀ d ∈ (k, x) :: m, a < d.1 := by
          intro d hd
          rcases List.mem_cons.1 hd with rfl | hd
          · exact h1
          · exact Nat.lt_trans h1 (hlt d hd)
        simpa [Memory.write, h1, hv] using wf_cons h hall ha hv
    · by_cases h2 : a = k
      · by_cases hv : v = Config.unwritten
        · simpa [Memory.write, h2, hv] using hm
        · simpa [Memory.write, h2, hv] using wf_cons (c := (k, v)) hm hlt hk hv
      · have hall : ∀ d ∈ Memory.write m a v, k < d.1 := by
          intro d hd
          rcases mem_write hd with ⟨rfl, -⟩ | hd
          · exact (by omega : k < a)
          · exact hlt d hd
        simpa [Memory.write, h1, h2] using wf_cons (c := (k, x)) (ih hm) hall hk hx

theorem nil_wf : Memory.wf [] := by simp [Memory.wf]

/-- Writing a sequence of words that fits keeps the canonical form. -/
theorem writeAll_wf {m : Memory} (h : m.wf) {a : Nat} {words : List Word} (ha : a + words.length ≤ 65536) :
    (m.writeAll a words).wf := by
  induction words generalizing m a with
  | nil => exact h
  | cons v rest ih =>
    rw [List.length_cons] at ha
    exact ih (write_wf h (by omega) v) (by omega)

/-- Any list of writes makes a memory in canonical form. -/
theorem ofCells_wf (l : List (Nat × Word)) : (Memory.ofCells l).wf := by
  induction l with
  | nil => exact nil_wf
  | cons c l ih =>
    obtain ⟨a, v⟩ := c
    by_cases ha : a < Config.memWords
    · simpa [Memory.ofCells, ha] using write_wf ih ha v
    · simpa [Memory.ofCells, ha] using ih

theorem freeMemory_wf (draw : Nat) : (freeMemory draw).wf := ofCells_wf _

theorem reset_mem_wf : State.reset.mem.wf := nil_wf

/-- A sequence written from `a` up leaves every address below `a` as it reads. -/
theorem read_writeAll_below {b : Nat} (words : List Word) (m : Memory) (a : Nat) (hb : b < a) :
    (m.writeAll a words).read b = m.read b := by
  induction words generalizing m a with
  | nil => rfl
  | cons v rest ih => rw [Memory.writeAll, ih _ _ (by omega), read_write_other (by omega)]

end Sys2Proof.Machine
end

