-- ==== Sys2Proof/Laws/Registers.lean ====
section
/-! SUPPORT. Registers: read after write, no aliasing, and what operand codes resolve to. -/

namespace Sys2Proof.Machine

open Sys2Proof

/-- A register reads back the word written to it (10_state.md R22). -/
@[simp] theorem get_set_same (f : RegFile) (n : RegName) (v : Word) : (f.set n v).get n = v := by
  obtain ⟨b, i⟩ := n
  cases b <;> simp [RegFile.set, RegFile.get]

/-- Writing one register changes no other (10_state.md R21). -/
theorem get_set_other {n m : RegName} (h : m ≠ n) (f : RegFile) (v : Word) : (f.set n v).get m = f.get m := by
  obtain ⟨b, i⟩ := n
  obtain ⟨b', j⟩ := m
  cases b <;> cases b' <;> simp [RegFile.set, RegFile.get, Vector.getElem_set] at h ⊢ <;>
    intro hij <;> exact absurd (Fin.ext hij.symm) h

@[simp] theorem reg_setReg_same (s : State) (n : RegName) (v : Word) : (s.setReg n v).reg n = v := get_set_same ..

theorem reg_setReg_other {n m : RegName} (h : m ≠ n) (s : State) (v : Word) : (s.setReg n v).reg m = s.reg m :=
  get_set_other h ..

/-- Every register reads 0x0000 in the zeroed file (10_state.md R35). -/
@[simp] theorem get_zero (n : RegName) : RegFile.zero.get n = 0 := by
  obtain ⟨b, i⟩ := n
  cases b <;> simp [RegFile.zero, RegFile.get]

/-- A whole-bank write gives the bank's registers the values in index order and leaves the other banks. -/
theorem get_setBank (f : RegFile) (b : Bank) (values : Vector Word 16) (n : RegName) :
    (f.setBank b values).get n = if n.bank = b then values[n.index.val] else f.get n := by
  obtain ⟨b', i⟩ := n
  cases b <;> cases b' <;> simp [RegFile.setBank, RegFile.get]

/-- The bank bits of a register's code are its bank's code. -/
theorem bankBits_codeOf (n : RegName) : OperandCode.bankBits (codeOf n) = bankCode n.bank := by
  obtain ⟨b, i⟩ := n
  revert i
  cases b <;> decide

/-- The index bits of a register's code are its index. -/
theorem indexBits_codeOf (n : RegName) : (OperandCode.indexBits (codeOf n)).toNat = n.index.val := by
  obtain ⟨b, i⟩ := n
  revert i
  cases b <;> decide

@[simp] theorem bankOfBits_bankCode (b : Bank) : bankOfBits (bankCode b) = .ok b := by cases b <;> rfl

/-- The code of a register resolves to it. -/
@[simp] theorem resolve_codeOf (n : RegName) : resolve (codeOf n) = .ok n := by
  simp [resolve, bankBits_codeOf, indexBits_codeOf]

theorem bankBits_codeOf_ne (n : RegName) : OperandCode.bankBits (codeOf n) ≠ 3 := by
  rw [bankBits_codeOf]
  cases n.bank <;> decide

/-- A code whose bank bits are not 0b11 is the code of some register. -/
theorem exists_codeOf {c : OperandCode} (h : c.bankBits ≠ 3) : ∃ n, c = codeOf n := by
  have hr : ∀ c : OperandCode, c.bankBits ≠ 3 →
      c = codeOf ⟨.r, ⟨c.indexBits.toNat, c.indexBits.isLt⟩⟩ ∨ c = codeOf ⟨.s, ⟨c.indexBits.toNat, c.indexBits.isLt⟩⟩ ∨
      c = codeOf ⟨.t, ⟨c.indexBits.toNat, c.indexBits.isLt⟩⟩ := by decide
  rcases hr c h with h | h | h <;> exact ⟨_, h⟩

/-- A code with bank bits 0b11 fails; any other code is the code of the register it resolves to. -/
theorem resolve_cases (c : OperandCode) :
    (c.bankBits = 3 ∧ resolve c = .error .invalidOperand) ∨
    (c.bankBits ≠ 3 ∧ ∃ n, resolve c = .ok n ∧ c = codeOf n) := by
  by_cases h : c.bankBits = 3
  · exact .inl ⟨h, by simp [resolve, bankOfBits, h]⟩
  · obtain ⟨n, rfl⟩ := exists_codeOf h
    exact .inr ⟨h, n, resolve_codeOf n, rfl⟩

/-- A code resolves to a register exactly when it is that register's code. -/
theorem resolve_eq_ok {c : OperandCode} {n : RegName} : resolve c = .ok n ↔ c = codeOf n := by
  refine ⟨fun h => ?_, fun h => h ▸ resolve_codeOf n⟩
  rcases resolve_cases c with ⟨-, h'⟩ | ⟨-, m, h', hm⟩
  · rw [h'] at h; cases h
  · rw [h'] at h; cases h; exact hm

theorem resolve_error_iff {c : OperandCode} : resolve c = .error .invalidOperand ↔ c.bankBits = 3 := by
  rcases resolve_cases c with ⟨hb, h'⟩ | ⟨hb, m, h', -⟩
  · exact ⟨fun _ => hb, fun _ => h'⟩
  · exact ⟨fun h => by (rw [h'] at h; cases h), fun h => absurd h hb⟩

theorem valid_iff (c : OperandCode) : c.valid = true ↔ c.bankBits ≠ 3 := by
  simp [OperandCode.valid]

end Sys2Proof.Machine
end

