-- ==== Sys2Proof/Laws/Ops.lean ====
section
/-! SUPPORT. For each shared operation, one lemma that says everything it can do. -/

namespace Sys2Proof.Machine

open Sys2Proof

/-! ### Memory accesses -/

/-- A data address is a word, so a load from it is in range (20_memory.md R43). -/
@[simp] theorem memRead_word (a : Word) (s : State) : memRead a.toNat s = .ok (s.word a.toNat) := by
  have := a.isLt
  simp [memRead, this]

/-- A data address is a word, so a store to it is in range (20_memory.md R43). -/
@[simp] theorem memWrite_word (a v : Word) (s : State) :
    memWrite a.toNat v s = .ok { s with mem := s.mem.write a.toNat v } := by
  have := a.isLt
  simp [memWrite, this]

theorem memRead_eq {a : Nat} (h : a < 65536) (s : State) : memRead a s = .ok (s.word a) := by simp [memRead, h]

theorem memRead_error {a : Nat} (h : 65536 ≤ a) (s : State) : memRead a s = .error .outOfBounds := by
  simp [memRead, Nat.not_lt.2 h]

/-! ### The stack -/

/-- A push with room writes the slot at stackLast and raises stackLast. -/
theorem push_room {s : State} (h : s.stackLast.toNat < 65536) (v : Word) :
    push v s = .ok { s with mem := s.mem.write s.stackLast.toNat v, stackLast := s.stackLast + 1 } := by
  simp [push, memWrite, h, Nat.not_le.2 h]

/-- A push on a full stack fails and writes nothing. -/
theorem push_full {s : State} (h : 65536 ≤ s.stackLast.toNat) (v : Word) : push v s = .error .outOfBounds := by
  simp [push, h]

/-- The slot a pop reads, as a number. -/
theorem popSlot_toNat (s : State) : s.popSlot.toNat = s.stackLast.toNat - 1 := by
  have := s.stackLast.isLt
  unfold State.popSlot
  split <;> rename_i h <;> simp [BitVec.lt_def, BitVec.toNat_sub] at h ⊢ <;> omega

/-- A pop reads the slot below stackLast, or mem[0] on an empty stack, and never fails while stackLast is in range. -/
theorem pop_eq {s : State} (h : s.stackLast.toNat ≤ 65536) :
    pop s = .ok (s.word s.popSlot.toNat, { s with stackLast := s.popSlot }) := by
  rw [pop, memRead_eq (by rw [popSlot_toNat]; omega)]

/-- What a pop can answer: a word and the state with stackLast at the slot read, or OutOfBounds. -/
theorem pop_cases (s : State) :
    pop s = .ok (s.word s.popSlot.toNat, { s with stackLast := s.popSlot }) ∨ pop s = .error .outOfBounds := by
  unfold pop memRead
  split <;> rename_i h <;> split at h <;> cases h
  · exact .inr rfl
  · exact .inl rfl

/-! ### Operands -/

/-- With two valid operand codes the body runs on what they resolve to. -/
@[simp] theorem withOperands_codes (r1 r2 : RegName) (s : State) (body : Operands → Result) :
    withOperands (codeOf r1) (codeOf r2) s body = body { dest := r1, op1 := s.reg r1, op2 := s.reg r2 } := by
  simp [withOperands]

/-- With bank 0b11 in either operand code the instruction raises InvalidOperand, whatever its body. -/
theorem withOperands_invalid {c1 c2 : OperandCode} (h : c1.bankBits = 3 ∨ c2.bankBits = 3) (s : State)
    (body : Operands → Result) : withOperands c1 c2 s body = raiseFatal .invalidOperand s := by
  unfold withOperands
  rcases resolve_cases c1 with ⟨-, h1⟩ | ⟨hb, n, h1, -⟩
  · simp [h1]
  · have h2 := resolve_error_iff.2 (h.resolve_left hb)
    simp [h1, h2]

/-- All a shared operand check can do: raise InvalidOperand, or run the body on two registers the codes name. -/
theorem withOperands_cases (c1 c2 : OperandCode) (s : State) (body : Operands → Result) :
    ((c1.bankBits = 3 ∨ c2.bankBits = 3) ∧ withOperands c1 c2 s body = raiseFatal .invalidOperand s) ∨
    (∃ r1 r2, c1 = codeOf r1 ∧ c2 = codeOf r2 ∧
      withOperands c1 c2 s body = body { dest := r1, op1 := s.reg r1, op2 := s.reg r2 }) := by
  rcases resolve_cases c1 with ⟨hb, -⟩ | ⟨-, r1, -, rfl⟩
  · exact .inl ⟨.inl hb, withOperands_invalid (.inl hb) ..⟩
  · rcases resolve_cases c2 with ⟨hb, -⟩ | ⟨-, r2, -, rfl⟩
    · exact .inl ⟨.inr hb, withOperands_invalid (.inr hb) ..⟩
    · exact .inr ⟨r1, r2, rfl, rfl, withOperands_codes ..⟩

@[simp] theorem withOperand3_code (r3 : RegName) (s : State) (body : Word → Result) :
    withOperand3 (codeOf r3) s body = body (s.reg r3) := by
  simp [withOperand3]

theorem withOperand3_invalid {c3 : OperandCode} (h : c3.bankBits = 3) (s : State) (body : Word → Result) :
    withOperand3 c3 s body = raiseFatal .invalidOperand s := by
  simp [withOperand3, resolve_error_iff.2 h]

/-- All the operand3 check can do. -/
theorem withOperand3_cases (c3 : OperandCode) (s : State) (body : Word → Result) :
    (c3.bankBits = 3 ∧ withOperand3 c3 s body = raiseFatal .invalidOperand s) ∨
    (∃ r3, c3 = codeOf r3 ∧ withOperand3 c3 s body = body (s.reg r3)) := by
  rcases resolve_cases c3 with ⟨hb, -⟩ | ⟨-, r3, -, rfl⟩
  · exact .inl ⟨hb, withOperand3_invalid hb ..⟩
  · exact .inr ⟨r3, rfl, withOperand3_code ..⟩

/-! ### Branches and raising -/

/-- All a branch can do: fall through, push and go to the target, or raise OutOfBounds on a full stack. -/
theorem branchWhen_cases (taken : Bool) (target : Word) (s : State) :
    (taken = false ∧ branchWhen taken target s = .next s.advance) ∨
    (taken = true ∧ s.stackLast.toNat < 65536 ∧ branchWhen taken target s =
      .next (State.jumpTo { s with mem := s.mem.write s.stackLast.toNat s.pcWord, stackLast := s.stackLast + 1 }
        target)) ∨
    (taken = true ∧ 65536 ≤ s.stackLast.toNat ∧ branchWhen taken target s = raiseFatal .outOfBounds s) := by
  cases taken with
  | false => exact .inl ⟨rfl, rfl⟩
  | true =>
    by_cases h : s.stackLast.toNat < 65536
    · exact .inr (.inl ⟨rfl, h, by simp [branchWhen, push_room h]⟩)
    · have h := Nat.not_lt.1 h
      exact .inr (.inr ⟨rfl, h, by simp [branchWhen, push_full h]⟩)

theorem raiseFatal_eq (e : ErrorKind) (s : State) : raiseFatal e s = .next (s.latch e) := rfl

/-- A free cursor lies in 0 to 65536. -/
theorem freeCursor_le (n : Nat) : (freeCursor n).toNat ≤ 65536 := by
  have : n % 65537 < 65537 := Nat.mod_lt n (by decide)
  show n % 65537 % 131072 ≤ 65536
  omega

end Sys2Proof.Machine
end

