-- ==== Sys2Proof/Laws/Exec.lean ====
section
/-! SUPPORT. Everything `exec`, `fetch` and `step` can do, said once, and runs cut into steps. -/

namespace Sys2Proof.Machine

open Sys2Proof

/-! ### Fetch and step -/

/-- Below 65535 the fetch reads the words at pc and pc + 1. -/
theorem fetch_eq {s : State} (h : s.pc.toNat < 65535) : fetch s = .ok (s.word s.pc.toNat, s.word (s.pc.toNat + 1)) := by
  simp [fetch, memRead_eq (show s.pc.toNat < 65536 by omega), memRead_eq (show s.pc.toNat + 1 < 65536 by omega)]

/-- At 65535 and above the fetch fails. -/
theorem fetch_error {s : State} (h : 65535 ≤ s.pc.toNat) : fetch s = .error .outOfBounds := by
  unfold fetch
  by_cases h' : s.pc.toNat < 65536
  · simp [memRead_eq h', memRead_error (show 65536 ≤ s.pc.toNat + 1 by omega)]
  · simp [memRead_error (Nat.not_lt.1 h')]

/-- A fetch that answers has a pc below 65535, and answers the words there. -/
theorem fetch_ok {s : State} {w0 w1 : Word} (h : fetch s = .ok (w0, w1)) :
    s.pc.toNat < 65535 ∧ w0 = s.word s.pc.toNat ∧ w1 = s.word (s.pc.toNat + 1) := by
  by_cases hp : s.pc.toNat < 65535
  · rw [fetch_eq hp] at h
    cases h
    exact ⟨hp, rfl, rfl⟩
  · rw [fetch_error (Nat.not_lt.1 hp)] at h
    cases h

theorem step_latched {s : State} {k : ErrorKind} (h : s.fault = some k) : step s = .fault (.latched k) := by
  simp [step, pulse, h]

theorem step_fetch_error {s : State} (h : s.fault = none) (hp : 65535 ≤ s.pc.toNat) :
    step s = raiseFatal .outOfBounds s := by
  simp [step, pulse, h, fetchExecute, fetch_error hp]

/-- The shape of every step: latched, a failed fetch, or `exec` of the decoded pair. -/
theorem step_cases (s : State) :
    (∃ k, s.fault = some k ∧ step s = .fault (.latched k)) ∨
    (s.fault = none ∧ 65535 ≤ s.pc.toNat ∧ step s = raiseFatal .outOfBounds s) ∨
    (s.fault = none ∧ s.pc.toNat < 65535 ∧
      step s = exec (decode (s.word s.pc.toNat) (s.word (s.pc.toNat + 1))) s) := by
  cases hf : s.fault with
  | some k => exact .inl ⟨k, rfl, step_latched hf⟩
  | none =>
    by_cases hp : s.pc.toNat < 65535
    · exact .inr (.inr ⟨rfl, hp, by simp [step, pulse, hf, fetchExecute, fetch_eq hp]⟩)
    · exact .inr (.inl ⟨rfl, Nat.not_lt.1 hp, step_fetch_error hf (Nat.not_lt.1 hp)⟩)

theorem raises_raiseFatal (e : ErrorKind) (s : State) : Raises e (raiseFatal e s) := ⟨_, rfl, rfl⟩

/-! ### What each instruction is over the shared operations -/

section Equations
variable (c1 c2 c3 : OperandCode) (w : Word) (s : State)

theorem exec_nop : exec (.nop c1 c2) s = withOperands c1 c2 s fun _ => .next s.advance := rfl
theorem exec_storeWord : exec (.storeWord c1 c2) s = withOperands c1 c2 s fun o =>
    match memWrite o.op2.toNat o.op1 s with
    | .error e => raiseFatal e s
    | .ok t => .next t.advance := rfl
theorem exec_nandReg : exec (.nandReg c1 c2 c3) s =
    withOperands c1 c2 s fun o => withOperand3 c3 s fun op3 => writeResult o (aluNand o.op2 op3) s := rfl
theorem exec_nandConst : exec (.nandConst c1 c2 w) s =
    withOperands c1 c2 s fun o => writeResult o (aluNand o.op2 w) s := rfl
theorem exec_notReg : exec (.notReg c1 c2) s = withOperands c1 c2 s fun o => writeResult o (aluNot o.op2) s := rfl
theorem exec_notConst : exec (.notConst c1 c2 w) s = withOperands c1 c2 s fun o => writeResult o (aluNot w) s := rfl
theorem exec_branchEqual : exec (.branchEqual c1 c2 w) s =
    withOperands c1 c2 s fun o => branchWhen (condEqual o.op1 o.op2) w s := rfl
theorem exec_branchNotEqual : exec (.branchNotEqual c1 c2 w) s =
    withOperands c1 c2 s fun o => branchWhen (condNotEqual o.op1 o.op2) w s := rfl
theorem exec_branchLess : exec (.branchLess c1 c2 w) s =
    withOperands c1 c2 s fun o => branchWhen (condLess o.op1 o.op2) w s := rfl
theorem exec_branchGreater : exec (.branchGreater c1 c2 w) s =
    withOperands c1 c2 s fun o => branchWhen (condGreater o.op1 o.op2) w s := rfl
theorem exec_jump : exec (.jump c1 c2 w) s = withOperands c1 c2 s fun _ => .next (s.jumpTo w) := rfl
theorem exec_loadWord : exec (.loadWord c1 c2) s = withOperands c1 c2 s fun o =>
    match memRead o.op2.toNat s with
    | .error e => raiseFatal e s
    | .ok v => .next (s.setReg o.dest v).advance := rfl
theorem exec_ret : exec (.ret c1 c2) s = withOperands c1 c2 s fun _ =>
    match pop s with
    | .error e => raiseFatal e s
    | .ok (v, t) => .next (t.jumpTo v) := rfl
end Equations

/-! ### Everything `exec` can do -/

/-- All that an instruction can do when it completes: nothing but advance, write one register, store one word, take a
branch, jump, or return. -/
inductive Completes (i : Instr) (s : State) : State → Prop where
  | advance (h : takesBranch i s = false) : Completes i s s.advance
  | register (d : RegName) (v : Word) (hd : destinationCode i = some (codeOf d)) (h : takesBranch i s = false) :
      Completes i s (s.setReg d v).advance
  | store (c1 c2 : OperandCode) (a v : Word) (hi : i = .storeWord c1 c2) (ha : storeAddress i s = some a.toNat) :
      Completes i s (State.advance { s with mem := s.mem.write a.toNat v })
  | branch (target : Word) (h : takesBranch i s = true) (hr : s.stackLast.toNat < 65536) :
      Completes i s (State.jumpTo
        { s with mem := s.mem.write s.stackLast.toNat s.pcWord, stackLast := s.stackLast + 1 } target)
  | jump (c1 c2 : OperandCode) (target : Word) (hi : i = .jump c1 c2 target) : Completes i s (s.jumpTo target)
  | ret (c1 c2 : OperandCode) (hi : i = .ret c1 c2) :
      Completes i s (State.jumpTo { s with stackLast := s.popSlot } (s.word s.popSlot.toNat))

/-- Everything an instruction can do, with the condition for each: it raises Undefined, InvalidOperand or OutOfBounds, or
it completes. -/
inductive Ends (i : Instr) (s : State) : Prop where
  | undefined (h : i.rejection = some .undefinedOpcode) (hx : exec i s = raiseFatal .undefined s)
  | invalid (why : Rejection) (h : i.rejection = some why) (hw : why ≠ .undefinedOpcode)
      (hx : exec i s = raiseFatal .invalidOperand s)
  | full (h : i.rejection = none) (hb : takesBranch i s = true) (hs : 65536 ≤ s.stackLast.toNat)
      (hx : exec i s = raiseFatal .outOfBounds s)
  | beyond (h : i.rejection = none) (hb : takesBranch i s = false) (hs : 65536 < s.stackLast.toNat)
      (hx : exec i s = raiseFatal .outOfBounds s)
  | completes (t : State) (h : i.rejection = none) (hx : exec i s = .next t) (hc : Completes i s t)

theorem rejectOperands_codes (r1 r2 : RegName) : rejectOperands (codeOf r1) (codeOf r2) = none := by
  have h1 := (valid_iff (codeOf r1)).2 (bankBits_codeOf_ne r1)
  have h2 := (valid_iff (codeOf r2)).2 (bankBits_codeOf_ne r2)
  simp [rejectOperands, h1, h2]

theorem rejectOperands_invalid {c1 c2 : OperandCode} (h : c1.bankBits = 3 ∨ c2.bankBits = 3) :
    ∃ why, rejectOperands c1 c2 = some why ∧ why ≠ .undefinedOpcode := by
  unfold rejectOperands
  by_cases h1 : c1.valid = true
  · have h2 : c2.valid = false := by
      have := h.resolve_left ((valid_iff c1).1 h1)
      simpa [OperandCode.valid] using this
    exact ⟨.invalidOperand2, by simp [h1, h2], by simp⟩
  · exact ⟨.invalidOperand1, by simp [h1], by simp⟩

/-- How an instruction that starts with the shared operand check ends, from how its body ends. -/
theorem ends_withOperands {i : Instr} {c1 c2 : OperandCode} {s : State} {body : Operands → Result}
    (hx : exec i s = withOperands c1 c2 s body)
    (hr : ∀ why, rejectOperands c1 c2 = some why → i.rejection = some why)
    (hb : ∀ r1 r2, c1 = codeOf r1 → c2 = codeOf r2 →
      exec i s = body { dest := r1, op1 := s.reg r1, op2 := s.reg r2 } → Ends i s) : Ends i s := by
  rcases withOperands_cases c1 c2 s body with ⟨h, h'⟩ | ⟨r1, r2, h1, h2, h'⟩
  · obtain ⟨why, hwhy, hne⟩ := rejectOperands_invalid h
    exact .invalid why (hr why hwhy) hne (hx.trans h')
  · exact hb r1 r2 h1 h2 (hx.trans h')

/-- How a branch ends, its operands resolved. -/
theorem ends_branch {i : Instr} {r1 r2 : RegName} {cond : Word → Word → Bool} {target : Word} {s : State}
    (hr : i.rejection = none) (ht : takesBranch i s = cond (s.reg r1) (s.reg r2))
    (hx : exec i s = branchWhen (cond (s.reg r1) (s.reg r2)) target s) : Ends i s := by
  rcases branchWhen_cases (cond (s.reg r1) (s.reg r2)) target s with ⟨hc, h⟩ | ⟨hc, hs, h⟩ | ⟨hc, hs, h⟩
  · exact .completes _ hr (hx.trans h) (.advance (ht.trans hc))
  · exact .completes _ hr (hx.trans h) (.branch _ (ht.trans hc) hs)
  · exact .full hr (ht.trans hc) hs (hx.trans h)

/-- Every instruction, in every state, ends in one of these ways; `exec` never faults and never refuses. -/
theorem exec_ends (i : Instr) (s : State) : Ends i s := by
  cases i with
  | nop c1 c2 =>
    refine ends_withOperands (exec_nop ..) (fun _ h => h) fun r1 r2 h1 h2 hx => ?_
    subst h1 h2
    exact .completes _ (rejectOperands_codes ..) hx (.advance rfl)
  | storeWord c1 c2 =>
    refine ends_withOperands (exec_storeWord ..) (fun _ h => h) fun r1 r2 h1 h2 hx => ?_
    subst h1 h2
    exact .completes _ (rejectOperands_codes ..) (hx.trans (by rw [memWrite_word]))
      (.store _ _ (s.reg r2) (s.reg r1) rfl (by simp [storeAddress]))
  | nandReg c1 c2 c3 =>
    refine ends_withOperands (exec_nandReg ..) (fun _ h => by simp [Instr.rejection, h]) fun r1 r2 h1 h2 hx => ?_
    subst h1 h2
    rcases withOperand3_cases c3 s fun op3 =>
        writeResult { dest := r1, op1 := s.reg r1, op2 := s.reg r2 } (aluNand (s.reg r2) op3) s with
      ⟨h3, h⟩ | ⟨r3, rfl, h⟩
    · refine .invalid .invalidOperand3 ?_ (by simp) (hx.trans h)
      simp [Instr.rejection, rejectOperands_codes, OperandCode.valid, h3]
    · refine .completes _ ?_ (hx.trans h) (.register r1 _ rfl rfl)
      simp [Instr.rejection, rejectOperands_codes, (valid_iff (codeOf r3)).2 (bankBits_codeOf_ne r3)]
  | nandConst c1 c2 imm =>
    refine ends_withOperands (exec_nandConst ..) (fun _ h => h) fun r1 r2 h1 h2 hx => ?_
    subst h1 h2
    exact .completes _ (rejectOperands_codes ..) hx (.register r1 _ rfl rfl)
  | notReg c1 c2 =>
    refine ends_withOperands (exec_notReg ..) (fun _ h => h) fun r1 r2 h1 h2 hx => ?_
    subst h1 h2
    exact .completes _ (rejectOperands_codes ..) hx (.register r1 _ rfl rfl)
  | notConst c1 c2 imm =>
    refine ends_withOperands (exec_notConst ..) (fun _ h => h) fun r1 r2 h1 h2 hx => ?_
    subst h1 h2
    exact .completes _ (rejectOperands_codes ..) hx (.register r1 _ rfl rfl)
  | branchEqual c1 c2 target =>
    refine ends_withOperands (exec_branchEqual ..) (fun _ h => h) fun r1 r2 h1 h2 hx => ?_
    subst h1 h2
    exact ends_branch (rejectOperands_codes ..) (by simp [takesBranch]) hx
  | branchNotEqual c1 c2 target =>
    refine ends_withOperands (exec_branchNotEqual ..) (fun _ h => h) fun r1 r2 h1 h2 hx => ?_
    subst h1 h2
    exact ends_branch (rejectOperands_codes ..) (by simp [takesBranch]) hx
  | branchLess c1 c2 target =>
    refine ends_withOperands (exec_branchLess ..) (fun _ h => h) fun r1 r2 h1 h2 hx => ?_
    subst h1 h2
    exact ends_branch (rejectOperands_codes ..) (by simp [takesBranch]) hx
  | branchGreater c1 c2 target =>
    refine ends_withOperands (exec_branchGreater ..) (fun _ h => h) fun r1 r2 h1 h2 hx => ?_
    subst h1 h2
    exact ends_branch (rejectOperands_codes ..) (by simp [takesBranch]) hx
  | jump c1 c2 target =>
    refine ends_withOperands (exec_jump ..) (fun _ h => h) fun r1 r2 h1 h2 hx => ?_
    subst h1 h2
    exact .completes _ (rejectOperands_codes ..) hx (.jump _ _ _ rfl)
  | loadWord c1 c2 =>
    refine ends_withOperands (exec_loadWord ..) (fun _ h => h) fun r1 r2 h1 h2 hx => ?_
    subst h1 h2
    exact .completes _ (rejectOperands_codes ..) (hx.trans (by rw [memRead_word])) (.register r1 _ rfl rfl)
  | ret c1 c2 =>
    refine ends_withOperands (exec_ret ..) (fun _ h => h) fun r1 r2 h1 h2 hx => ?_
    subst h1 h2
    by_cases hs : s.stackLast.toNat ≤ 65536
    · exact .completes _ (rejectOperands_codes ..) (hx.trans (by rw [pop_eq hs])) (.ret _ _ rfl)
    · have hp : pop s = .error .outOfBounds := by
        rw [pop, memRead_error (by rw [popSlot_toNat]; omega)]
      exact .beyond (rejectOperands_codes ..) rfl (Nat.not_le.1 hs) (hx.trans (by rw [hp]))
  | undefined13 => exact .undefined rfl rfl
  | undefined14 => exact .undefined rfl rfl
  | undefined15 => exact .undefined rfl rfl

/-- A completed instruction leaves the latch and the draw counter alone. -/
theorem Completes.fault_draws {i : Instr} {s t : State} (h : Completes i s t) : t.fault = s.fault ∧ t.draws = s.draws := by
  cases h <;> exact ⟨rfl, rfl⟩

/-- A raised error stands in the latch of the state it leaves. -/
theorem raiseFatal_fault {e : ErrorKind} {s t : State} (h : raiseFatal e s = .next t) : t = s.latch e := by
  rw [raiseFatal_eq] at h
  injection h with h
  exact h.symm

/-- An instruction that leaves the latch at NONE passed its checks and completed. -/
theorem completes_of_exec {i : Instr} {s t : State} (hx : exec i s = .next t) (ht : t.fault = none) :
    i.rejection = none ∧ Completes i s t := by
  have hraise (e : ErrorKind) (h : exec i s = raiseFatal e s) : False := by
    rw [raiseFatal_fault (h.symm.trans hx), latch_fault] at ht
    cases ht
  cases exec_ends i s with
  | undefined _ h => exact (hraise _ h).elim
  | invalid _ _ _ h => exact (hraise _ h).elim
  | full _ _ _ h => exact (hraise _ h).elim
  | beyond _ _ _ h => exact (hraise _ h).elim
  | completes u hr h hc =>
    rw [h] at hx
    injection hx with hx
    exact ⟨hr, hx ▸ hc⟩

/-! ### Runs -/

theorem run_zero (s : State) : Sys2Proof.core.run 0 s = .next s := rfl

/-- A step that answers a next state starts the run from it. -/
theorem run_succ {s t : State} (h : step s = .next t) (k : Nat) :
    Sys2Proof.core.run (k + 1) s = Sys2Proof.core.run k t := by
  have h' : Sys2Proof.core.step s = .next t := h
  simp [Host.Core.run, h']

/-- A run whose first step answers no next state answers none. -/
theorem run_succ_stops {s : State} (h : ∀ t, step s ≠ .next t) (k : Nat) (u : State) :
    Sys2Proof.core.run (k + 1) s ≠ .next u := by
  cases hs : Sys2Proof.core.step s with
  | next t => exact absurd hs (h t)
  | fault r => simp [Host.Core.run, hs]
  | refused r => simp [Host.Core.run, hs]

/-- A run of `j + k` steps whose first `j` reach `t` goes on from `t`. -/
theorem run_add {s t : State} {j : Nat} (h : Sys2Proof.core.run j s = .next t) (k : Nat) :
    Sys2Proof.core.run (j + k) s = Sys2Proof.core.run k t := by
  induction j generalizing s with
  | zero => cases h; rw [Nat.zero_add]
  | succ j ih =>
    rw [Nat.succ_add]
    by_cases hs : ∃ u, step s = .next u
    · obtain ⟨u, hs⟩ := hs
      rw [run_succ hs] at h ⊢
      exact ih h
    · exact absurd h (run_succ_stops (fun u hu => hs ⟨u, hu⟩) j t)

end Sys2Proof.Machine
end

