-- ==== Sys2Proof/Laws/PerInstr.lean ====
section
/-! SUPPORT. Laws that hold of every instruction, one lemma for each constructor. -/

namespace Sys2Proof.Laws.EncodedOpcode

open Sys2Proof

/-- The opcode of each row (30_encoding.md R66). -/
def opcodeNumber : Instr → BitVec 4
  | .nop .. => 0
  | .storeWord .. => 1
  | .nandReg .. => 2
  | .nandConst .. => 3
  | .notReg .. => 4
  | .notConst .. => 5
  | .branchEqual .. => 6
  | .branchNotEqual .. => 7
  | .branchLess .. => 8
  | .branchGreater .. => 9
  | .jump .. => 10
  | .loadWord .. => 11
  | .ret .. => 12
  | .undefined13 => 13
  | .undefined14 => 14
  | .undefined15 => 15

/-- The first word of an instruction holds its row's opcode in bits 15 to 12. -/
def Statement (i : Instr) : Prop := opcodeField (encode i).1 = opcodeNumber i

theorem nop (c1 c2 : OperandCode) : Statement (.nop c1 c2) := opcodeField_packWord0 ..
theorem storeWord (c1 c2 : OperandCode) : Statement (.storeWord c1 c2) := opcodeField_packWord0 ..
theorem nandReg (c1 c2 c3 : OperandCode) : Statement (.nandReg c1 c2 c3) := opcodeField_packWord0 ..
theorem nandConst (c1 c2 : OperandCode) (imm : Word) : Statement (.nandConst c1 c2 imm) := opcodeField_packWord0 ..
theorem notReg (c1 c2 : OperandCode) : Statement (.notReg c1 c2) := opcodeField_packWord0 ..
theorem notConst (c1 c2 : OperandCode) (imm : Word) : Statement (.notConst c1 c2 imm) := opcodeField_packWord0 ..
theorem branchEqual (c1 c2 : OperandCode) (target : Word) : Statement (.branchEqual c1 c2 target) :=
  opcodeField_packWord0 ..
theorem branchNotEqual (c1 c2 : OperandCode) (target : Word) : Statement (.branchNotEqual c1 c2 target) :=
  opcodeField_packWord0 ..
theorem branchLess (c1 c2 : OperandCode) (target : Word) : Statement (.branchLess c1 c2 target) :=
  opcodeField_packWord0 ..
theorem branchGreater (c1 c2 : OperandCode) (target : Word) : Statement (.branchGreater c1 c2 target) :=
  opcodeField_packWord0 ..
theorem jump (c1 c2 : OperandCode) (target : Word) : Statement (.jump c1 c2 target) := opcodeField_packWord0 ..
theorem loadWord (c1 c2 : OperandCode) : Statement (.loadWord c1 c2) := opcodeField_packWord0 ..
theorem ret (c1 c2 : OperandCode) : Statement (.ret c1 c2) := opcodeField_packWord0 ..
theorem undefined13 : Statement .undefined13 := opcodeField_packWord0 ..
theorem undefined14 : Statement .undefined14 := opcodeField_packWord0 ..
theorem undefined15 : Statement .undefined15 := opcodeField_packWord0 ..

end Sys2Proof.Laws.EncodedOpcode
end

