-- ==== Sys2Proof/Tests/Slice0.lean ====
section
/-! SUPPORT. The model's own tests. Expected results come from spec/95_test_vectors.md (named by their ids: S1 to S9, VF,
VN, VM, VA, VC, VH) or are worked out by hand from the rules named. -/

namespace Sys2Proof.Tests

open Sys2Proof Sys2Proof.Machine

/-! ### Helpers -/

def regR (i : Fin 16) : RegName := { bank := .r, index := i }
def regS (i : Fin 16) : RegName := { bank := .s, index := i }
def regT (i : Fin 16) : RegName := { bank := .t, index := i }

/-- A small state: pc, stackLast, some registers and some memory words; all else as at reset. -/
def start (pc sl : Nat) (regs : List (RegName × Word)) (cells : List (Nat × Word)) : State :=
  { State.reset with
    pc := BitVec.ofNat 17 pc
    stackLast := BitVec.ofNat 17 sl
    regs := regs.foldl (fun f p => f.set p.1 p.2) RegFile.zero
    mem := Memory.ofCells cells }

/-- The same with the latch set. -/
def latched (e : ErrorKind) : State := { State.reset with fault := some e }

/-- The outcome is a next state with the property. -/
def nextWith (o : Result) (p : State → Bool) : Bool :=
  match o with
  | .next t => p t
  | _ => false

/-- A host command completed and left the given memory. -/
def leavesMemory (o : Host.Outcome (State × Reply) Fault Refusal) (m : Memory) : Bool :=
  match o with
  | .next (t, _) => t.mem == m
  | _ => false

/-- The outcome is a next state whose latch holds the error. -/
def raisesB (e : ErrorKind) (o : Result) : Bool := nextWith o fun t => t.fault == some e

/-- The outcome is a next state with the latch NONE, the given pc and stackLast, and a property. -/
def completesB (o : Result) (pc sl : Nat) (p : State → Bool) : Bool :=
  nextWith o fun t => t.fault == none && t.pc.toNat == pc && t.stackLast.toNat == sl && p t

/-! ### WellFormed refuses an ill-formed term for each check (30_encoding.md R68, R69) -/

theorem test_wf_operand1 : (Instr.nop 0x30 0x00).rejection = some .invalidOperand1 := by decide
theorem test_wf_operand2 : (Instr.notConst 0x00 0x3F 0x20).rejection = some .invalidOperand2 := by decide
theorem test_wf_operand3 : (Instr.nandReg 0x11 0x00 0x30).rejection = some .invalidOperand3 := by decide
theorem test_wf_opcode : Instr.undefined15.rejection = some .undefinedOpcode := by decide
theorem test_wf_operand1_first : (Instr.nandReg 0x30 0x30 0x30).rejection = some .invalidOperand1 := by decide
theorem test_wf_good : (Instr.nandReg 0x2F 0x2F 0x2F).wellFormed = true := by decide
theorem test_wf_bad : (Instr.jump 0x30 0x00 0x10).wellFormed = false := by decide

/-! ### Every constructor's decoding, by a word written out from the spec -/

theorem test_decode_nop : decode 0b0000_101111_101111 0x0000 = .nop 0x2F 0x2F := by decide
theorem test_decode_storeWord : decode 0b0001_000001_000010 0x1234 = .storeWord 0x01 0x02 := by decide
theorem test_decode_nandReg : decode 0b0010_010001_000000 0b010000_1111111111 = .nandReg 0x11 0x00 0x10 := by decide
theorem test_decode_nandConst : decode 0b0011_000010_000001 0xFF00 = .nandConst 0x02 0x01 0xFF00 := by decide
theorem test_decode_notReg : decode 0b0100_100000_010001 0x0000 = .notReg 0x20 0x11 := by decide
theorem test_decode_notConst : decode 0b0101_100011_000000 0xFFFF = .notConst 0x23 0x00 0xFFFF := by decide
theorem test_decode_branchEqual : decode 0b0110_000000_000010 0x0008 = .branchEqual 0x00 0x02 0x0008 := by decide
theorem test_decode_branchNotEqual : decode 0b0111_000000_000001 0x0100 = .branchNotEqual 0x00 0x01 0x0100 := by decide
theorem test_decode_branchLess : decode 0b1000_000000_000001 0x0040 = .branchLess 0x00 0x01 0x0040 := by decide
theorem test_decode_branchGreater : decode 0b1001_000000_000001 0x0020 = .branchGreater 0x00 0x01 0x0020 := by decide
theorem test_decode_jump : decode 0b1010_000000_000000 0xFFFF = .jump 0x00 0x00 0xFFFF := by decide
theorem test_decode_loadWord : decode 0b1011_100011_000010 0x0000 = .loadWord 0x23 0x02 := by decide
theorem test_decode_ret : decode 0b1100_000000_000000 0x0000 = .ret 0x00 0x00 := by decide
theorem test_decode_undefined13 : decode 0b1101_111111_111111 0x0000 = .undefined13 := by decide
theorem test_decode_undefined14 : decode 0xE123 0x0000 = .undefined14 := by decide
theorem test_decode_undefined15 : decode 0xFFFF 0xFFFF = .undefined15 := by decide

/-- The encoding example of 30_encoding.md R73. -/
theorem test_encode_R73 : encode (.nandReg 0x11 0x00 0x10) = (0x2440, 0x4000) := by decide
theorem test_encode_loadWord : encode (.loadWord 0x23 0x02) = (0xB8C2, 0x0000) := by decide

/-- The table's match value of LOAD_WORD, w0 in the upper half (30_encoding.md R66). -/
theorem test_table_word : decodeTableWord 32 0xB0000000 = some (.loadWord 0x00 0x00) := by decide
theorem test_table_word_low_half : decodeTableWord 32 0x60020008 = some (.branchEqual 0x00 0x02 0x0008) := by decide

/-- A table word placed after reset is run by the first step: NOT_CONST R0, 32 (VA16). -/
theorem test_fetch_word : completesB (step (State.reset.withFetchWord 32 0x50000020)) 2 0
    (fun t => t.reg (regR 0) == 0xFFDF) = true := by decide
/-- So is an undefined row's match word. -/
theorem test_fetch_undefined : raisesB .undefined (step (State.reset.withFetchWord 32 0xD0000000)) = true := by decide

/-! ### One step of each instruction -/

/-- VF1 and VN1: w1 is ignored. -/
theorem test_nop : completesB (step (start 4 0 [] [(5, 0xBEEF)])) 6 0 (fun t => t.word 5 == 0xBEEF) = true := by decide
/-- VN3: the unused c1 is checked. -/
theorem test_nop_invalid : raisesB .invalidOperand (step (start 0 0 [] [(0, 0x0C00)])) = true := by decide
/-- VM1. -/
theorem test_storeWord : completesB (step (start 4 0 [(regR 1, 0x1234), (regR 2, 0x00FF)] [(4, 0x1042)])) 6 0
    (fun t => t.word 0x00FF == 0x1234) = true := by decide
/-- VM3: the top word is in range. -/
theorem test_storeWord_top : completesB (step (start 0 0 [(regR 1, 0xABCD), (regR 2, 0xFFFF)] [(0, 0x1042)])) 2 0
    (fun t => t.word 0xFFFF == 0xABCD) = true := by decide
/-- VM8: the address is the old R0. -/
theorem test_loadWord : completesB (step (start 0 0 [(regR 0, 0x0020)] [(0, 0xB000), (0x20, 0x5555)])) 2 0
    (fun t => t.reg (regR 0) == 0x5555) = true := by decide
/-- VM7. -/
theorem test_loadWord_T3 : completesB (step (start 0 0 [(regR 2, 0x00FF)] [(0, 0xB8C2), (0xFF, 0x1234)])) 2 0
    (fun t => t.reg (regT 3) == 0x1234 && t.reg (regR 3) == 0 && t.reg (regS 3) == 0) = true := by decide
/-- VA4. -/
theorem test_nandReg : completesB (step (start 0 0 [(regR 1, 0x1234), (regR 2, 0x00FF)] [(0, 0x2001), (1, 0x0800)])) 2 0
    (fun t => t.reg (regR 0) == 0xFFCB) = true := by decide
/-- VA7: the check of operand3. -/
theorem test_nandReg_invalid : raisesB .invalidOperand (step (start 0 0 [] [(0, 0x2440), (1, 0xC000)])) = true := by decide
/-- VA8. -/
theorem test_nandConst : completesB (step (start 0 0 [(regR 1, 0xF0F0)] [(0, 0x3081), (1, 0xFF00)])) 2 0
    (fun t => t.reg (regR 2) == 0x0FFF && t.reg (regR 1) == 0xF0F0) = true := by decide
/-- VA10: a literal is not checked as an operand code. -/
theorem test_nandConst_ones : completesB (step (start 0 0 [(regR 1, 0xF0F0)] [(0, 0x3081), (1, 0xFFFF)])) 2 0
    (fun t => t.reg (regR 2) == 0x0F0F) = true := by decide
/-- VA14: the source is the destination. -/
theorem test_notReg : completesB (step (start 0 0 [(regR 0, 0xFFDF)] [(0, 0x4000)])) 2 0
    (fun t => t.reg (regR 0) == 0x0020) = true := by decide
/-- VA15. -/
theorem test_notReg_T0 : completesB (step (start 0 0 [(regS 1, 0xFFFF), (regT 0, 7)] [(0, 0x4811)])) 2 0
    (fun t => t.reg (regT 0) == 0 && t.reg (regS 1) == 0xFFFF) = true := by decide
/-- VF5: an odd pc. -/
theorem test_notConst_odd : completesB (step (start 7 0 [] [(7, 0x5000), (8, 0x0001)])) 9 0
    (fun t => t.reg (regR 0) == 0xFFFE) = true := by decide
/-- VA19: the unused c2 is checked. -/
theorem test_notConst_invalid : raisesB .invalidOperand (step (start 0 0 [] [(0, 0x5030), (1, 0x0020)])) = true := by decide
/-- VC3. -/
theorem test_branchEqual : completesB (step (start 0x20 5 [(regR 0, 0x1234)] [(0x20, 0x6000), (0x21, 0x0100)])) 0x0100 6
    (fun t => t.word 5 == 0x0020) = true := by decide
/-- VC2. -/
theorem test_branchEqual_untaken : completesB (step (start 2 0 [(regR 2, 1)] [(2, 0x6002), (3, 0x0008)])) 4 0
    (fun t => t.word 0 == 0) = true := by decide
/-- VC8. -/
theorem test_branchNotEqual : completesB (step (start 0 1 [(regR 0, 1), (regR 1, 2)] [(0, 0x7001), (1, 0x0100)])) 0x0100 2
    (fun t => t.word 1 == 0) = true := by decide
/-- VC9. -/
theorem test_branchNotEqual_untaken :
    completesB (step (start 0 0 [(regR 0, 3), (regR 1, 3)] [(0, 0x7001), (1, 0x0100)])) 2 0 (fun _ => true) = true := by
  decide
/-- VC11: unsigned. -/
theorem test_branchLess : completesB (step (start 0x10 3 [(regR 0, 1), (regR 1, 0xFFFF)] [(0x10, 0x8001), (0x11, 0x0040)]))
    0x40 4 (fun t => t.word 3 == 0x0010) = true := by decide
/-- VC13: strict. -/
theorem test_branchLess_equal :
    completesB (step (start 0x10 0 [(regR 0, 7), (regR 1, 7)] [(0x10, 0x8001), (0x11, 0x0040)])) 0x12 0 (fun _ => true)
      = true := by decide
/-- VC14: unsigned. -/
theorem test_branchGreater :
    completesB (step (start 6 0 [(regR 0, 0x8000), (regR 1, 0x7FFF)] [(6, 0x9001), (7, 0x0020)])) 0x20 1
      (fun t => t.word 0 == 6) = true := by decide
/-- VC16. -/
theorem test_branchGreater_untaken :
    completesB (step (start 6 0 [(regR 0, 0x7FFF), (regR 1, 0x8000)] [(6, 0x9001), (7, 0x0020)])) 8 0 (fun _ => true)
      = true := by decide
/-- VC6: a push on a full stack. -/
theorem test_push_full : raisesB .outOfBounds (step (start 0 65536 [] [(0, 0x6000), (1, 0x0010)])) = true := by decide
/-- VC17: no push. -/
theorem test_jump : completesB (step (start 4 2 [] [(4, 0xA000), (5, 0x000C)])) 12 2 (fun t => t.word 2 == 0) = true := by
  decide
/-- VC20. -/
theorem test_jump_invalid : raisesB .invalidOperand (step (start 0 0 [] [(0, 0xAC00), (1, 0x0010)])) = true := by decide
/-- VC23: last in, first out. -/
theorem test_ret : completesB (step (start 10 3 [] [(0, 2), (1, 0x30), (2, 0x50), (10, 0xC000)])) 0x50 2
    (fun t => t.word 2 == 0x50) = true := by decide
/-- VC22: the empty stack. -/
theorem test_ret_empty : completesB (step (start 10 0 [] [(0, 0x42), (10, 0xC000)])) 0x42 0 (fun _ => true) = true := by
  decide
/-- VN8: Undefined comes before the operand checks. -/
theorem test_undefined13 : raisesB .undefined (step (start 0 0 [] [(0, 0xDFFF)])) = true := by decide
/-- VN6. -/
theorem test_undefined14 : raisesB .undefined (step (start 0 0 [] [(0, 0xE123)])) = true := by decide
/-- VN7. -/
theorem test_undefined15 : raisesB .undefined (step (start 0 0 [] [(0, 0xFFFF), (1, 0xFFFF)])) = true := by decide
/-- VF2: the pc reaches 65536. -/
theorem test_top_of_memory : completesB (step (start 65534 0 [] [])) 65536 0 (fun _ => true) = true := by decide
/-- VF3 and VF4. -/
theorem test_fetch_beyond : (raisesB .outOfBounds (step (start 65535 0 [] [])) &&
    raisesB .outOfBounds (step (start 65536 0 [] []))) = true := by decide

/-! ### Host commands -/

/-- VH2 and VH3. -/
theorem test_load : ((loadImage [1, 2] 65534 State.reset).1.mem = [(65534, 1), (65535, 2)]) ∧
    (loadImage [1, 2] 65535 State.reset = (State.reset, .outOfBounds)) := by decide
/-- 70_reset_and_hazards.md R190: LOAD's offset is 0 by default. -/
theorem test_load_default : leavesMemory (runCommand (.load [0x5000, 0x0020]) State.reset) [(0, 0x5000), (1, 0x0020)] = true := by
  decide
/-- VH4. -/
theorem test_load_empty : loadImage [] 65536 State.reset = (State.reset, .ok) := by decide
/-- S8: LOAD_REGS(1, 0x1000 + i). -/
theorem test_loadRegs : let t := (loadRegisters 1 (Vector.ofFn fun i => 0x1000#16 + BitVec.ofNat 16 i.val) State.reset).1
    t.reg (regS 0) = 0x1000 ∧ t.reg (regS 15) = 0x100F ∧ t.reg (regR 15) = 0 ∧ t.reg (regT 15) = 0 := by decide
/-- VH7. -/
theorem test_loadRegs_bank3 : loadRegisters 3 (Vector.replicate 16 9) State.reset = (State.reset, .invalidOperand) := by
  decide
/-- 20_memory.md R40: big-endian by default; three bytes are no image. -/
theorem test_image : imageWords Config.imageByteOrder [0x50, 0x00, 0x00, 0x20] = some [0x5000, 0x0020] ∧
    imageWords .little [0x00, 0x50] = some [0x5000] ∧ imageWords .big [1, 2, 3] = none := by decide

/-! ### A witness for the hypotheses of every statement that has some, each clause at a boundary of its range -/

/-- OperandCodesNameRegisters: the first and last code of each range. -/
theorem witness_operandCodes : ((0x00 : OperandCode).toNat = (0 : Fin 16).val ∧ (0x0F : OperandCode).toNat = (15 : Fin 16).val) ∧
    ((0x10 : OperandCode).toNat = 0x10 + (0 : Fin 16).val ∧ (0x1F : OperandCode).toNat = 0x10 + (15 : Fin 16).val) ∧
    ((0x20 : OperandCode).toNat = 0x20 + (0 : Fin 16).val ∧ (0x2F : OperandCode).toNat = 0x20 + (15 : Fin 16).val) ∧
    (0x30 ≤ (0x30 : OperandCode).toNat ∧ 0x30 ≤ (0x3F : OperandCode).toNat) := by decide

/-- IgnoredBitsChangeNothing. -/
theorem witness_ignoredBits : (opcodeField 0xC000).toNat ∈ [0, 1, 4, 11, 12, 13, 14, 15] ∧
    ((opcodeField 0x2440).toNat = 2 ∧ operand3Field 0x43FF = operand3Field 0x4000) ∧
    (13 ≤ (opcodeField 0xD000).toNat ∧ opcodeField 0xDFFF = opcodeField 0xD000) := by decide

/-- RegistersHoldAndDoNotAlias. -/
theorem witness_otherRegister : regS 5 ≠ regR 5 := by decide

/-- MemoryAccesses. -/
theorem witness_memoryAccesses : 65535 < 65536 ∧ State.reset.mem.wf ∧ 65536 ≤ 65536 := by decide

/-- CanonicalMemoriesAreUnique. -/
theorem witness_canonical : Memory.wf [(0, 1), (65535, 2)] ∧
    ∀ a, Memory.read [(0, 1), (65535, 2)] a = Memory.read [(0, 1), (65535, 2)] a := ⟨by decide, fun _ => rfl⟩

/-- LatchedCoreDoesNotStep, and the latched clauses of PulseCommandSteps, LoadCommandCopies and LoadRegsSetsOneBank. -/
theorem witness_latched : (latched .undefined).fault = some .undefined ∧ 65534 + [1#16, 2].length ≤ 65536 := by decide

/-- FetchReadsTwoWords and the fetch clause of CommonRule. -/
theorem witness_fetch : ((start 65534 0 [] []).pc.toNat + 1 < 65536) ∧
    ((start 65535 0 [] []).fault = none ∧ 65536 ≤ (start 65535 0 [] []).pc.toNat + 1 ∧
      65535 ≤ (start 65535 0 [] []).pc.toNat) := by decide

/-- StepRunsTheDecodedInstruction, at the last pc that fetches. -/
theorem witness_stepRuns : (start 65534 0 [] [(65534, 0xC000)]).fault = none ∧
    (start 65534 0 [] [(65534, 0xC000)]).pc.toNat < 65535 ∧
    decode ((start 65534 0 [] [(65534, 0xC000)]).word 65534) ((start 65534 0 [] [(65534, 0xC000)]).word 65535)
      = .ret 0 0 := by decide

/-- PlacedInstructionRunsNext, from a latched state with the pc at 65536. -/
theorem witness_placed : ({ latched .outOfBounds with pc := 65536 } : State).mem.wf ∧
    decodeTableWord 32 0xFFFFFFFF = some .undefined15 := by decide

/-- UndefinedOpcodesRaise: opcodes 13 and 15. -/
theorem witness_undefined : (start 0 0 [] [(0, 0xD000)]).fault = none ∧
    fetch (start 0 0 [] [(0, 0xD000)]) = .ok (0xD000, 0) ∧ 13 ≤ (opcodeField 0xD000).toNat ∧
    (opcodeField 0xD000).toNat = 13 ∧ (opcodeField 0xE000).toNat = 14 ∧ (opcodeField 0xFFFF).toNat = 15 :=
  ⟨rfl, rfl, by decide⟩

/-- InvalidOperandExactly: the last defined opcode, each side of the equivalence. -/
theorem witness_invalidOperand : (start 0 0 [] [(0, 0xCC00)]).fault = none ∧
    fetch (start 0 0 [] [(0, 0xCC00)]) = .ok (0xCC00, 0) ∧ (opcodeField 0xCC00).toNat ≤ 12 ∧
    (0xCC00 : Word).extractLsb' 10 2 = 3#2 ∧ (0xC030 : Word).extractLsb' 4 2 = 3#2 ∧
    ((opcodeField 0x2000).toNat = 2 ∧ (0xC000 : Word).extractLsb' 14 2 = 3#2) := ⟨rfl, rfl, by decide⟩

/-- ErrorsComeInOrder: a pair for each clause. -/
theorem witness_errorOrder :
    (start 65535 0 [] []).fault = none ∧ 65535 ≤ (start 65535 0 [] []).pc.toNat ∧
    13 ≤ (opcodeField 0xDFFF).toNat ∧
    ((opcodeField 0xCC30).toNat < 13 ∧ (operand1Field 0xCC30).bankBits = 3) ∧
    ((opcodeField 0xC030).toNat < 13 ∧ ¬ (operand1Field 0xC030).bankBits = 3 ∧ (operand2Field 0xC030).bankBits = 3) ∧
    ((opcodeField 0x2000).toNat = 2 ∧ ¬ (operand1Field 0x2000).bankBits = 3 ∧ ¬ (operand2Field 0x2000).bankBits = 3 ∧
      (operand3Field 0xC000).bankBits = 3) ∧
    (takesBranch (decode 0x6000 0x0010) (start 0 65536 [] [(0, 0x6000), (1, 0x0010)]) = true ∧
      65536 ≤ (start 0 65536 [] [(0, 0x6000), (1, 0x0010)]).stackLast.toNat) ∧
    (takesBranch (decode 0xC000 0) (start 0 65536 [] [(0, 0xC000)]) = false ∧
      (start 0 65536 [] [(0, 0xC000)]).stackLast.toNat ≤ 65536) := by decide

/-- ErrorsComeInOrder: its pairs are fetched. -/
theorem witness_errorOrder_fetch : fetch (start 0 65536 [] [(0, 0x6000), (1, 0x0010)]) = .ok (0x6000, 0x0010) ∧
    fetch (start 0 65536 [] [(0, 0xC000)]) = .ok (0xC000, 0) ∧ fetch (start 0 0 [] [(0, 0xDFFF)]) = .ok (0xDFFF, 0) ∧
    fetch (start 0 0 [] [(0, 0xCC30)]) = .ok (0xCC30, 0) ∧ fetch (start 0 0 [] [(0, 0xC030)]) = .ok (0xC030, 0) ∧
    fetch (start 0 0 [] [(0, 0x2000), (1, 0xC000)]) = .ok (0x2000, 0xC000) := ⟨rfl, rfl, rfl, rfl, rfl, rfl⟩

/-- OtherOpcodesAdvanceByTwo: at the top of memory. -/
theorem witness_advance : (start 65534 0 [] []).fault = none ∧ fetch (start 65534 0 [] []) = .ok (0, 0) ∧
    step (start 65534 0 [] []) = .next (start 65534 0 [] []).advance ∧ (start 65534 0 [] []).advance.fault = none ∧
    (opcodeField 0).toNat ∉ [6, 7, 8, 9, 10, 12] := ⟨rfl, rfl, rfl, rfl, by decide⟩

/-- StepKeepsInvariant, CommandRunsKeepInvariant and CompletedPulsesUseNoFreeValue. -/
theorem witness_invariant : State.reset.Inv ∧ step State.reset = .next State.reset.advance ∧
    State.reset.advance.fault = none := ⟨⟨nil_wf, by decide, by decide⟩, rfl, rfl⟩

/-- The memory hypothesis of StoreWordStores, StoreThenLoadReturnsValue, PushWritesThenIncrements and the others. -/
theorem witness_wf : (start 0 0 [] [(65535, 1), (0, 2)]).mem.wf := by decide

/-- The clauses of CommonRule: the opcode, and bank 0b11 in each operand. -/
theorem witness_commonRule : (opcodeField 0xCFFF).toNat = 12 ∧ (OperandCode.bankBits 0x30 = 3 ∨ OperandCode.bankBits 0x00 = 3) ∧
    (OperandCode.bankBits 0x2F = 3 ∨ OperandCode.bankBits 0x3F = 3) := by decide

/-- BranchesCompareAndPush: 0xFFFF against 0xFFFF and 0 against 0xFFFF give both answers of all four comparisons, with the
last slot free and with none. -/
theorem witness_branches :
    let s := start 0 65535 [(regR 1, 0xFFFF), (regR 2, 0xFFFF)] []
    let full := start 0 65536 [(regR 1, 0xFFFF)] []
    s.mem.wf ∧ full.mem.wf ∧ s.stackLast.toNat < 65536 ∧ 65536 ≤ full.stackLast.toNat ∧
    (s.reg (regR 1)).toNat = (s.reg (regR 2)).toNat ∧ (s.reg (regR 0)).toNat ≠ (s.reg (regR 1)).toNat ∧
    (s.reg (regR 0)).toNat < (s.reg (regR 1)).toNat ∧ ¬ (s.reg (regR 1)).toNat < (s.reg (regR 2)).toNat ∧
    (s.reg (regR 1)).toNat > (s.reg (regR 0)).toNat ∧ ¬ (s.reg (regR 1)).toNat > (s.reg (regR 2)).toNat := by decide

/-- RetPopsPc and PopDecrementsThenReads: the empty and the full stack. -/
theorem witness_pop : (start 10 0 [] []).stackLast.toNat ≤ 65536 ∧ (start 10 65536 [] []).stackLast.toNat ≤ 65536 := by
  decide

/-- PushWritesThenIncrements: the last slot, and none left. -/
theorem witness_push : (start 0 65535 [] []).stackLast.toNat < 65536 ∧ 65536 ≤ (start 0 65536 [] []).stackLast.toNat := by
  decide

/-- The branch of the witnesses below: BRANCH_EQUAL R0, R0, 8 with one slot left, at the last pc that fetches. -/
def branching : State := start 65534 65535 [] []

/-- RetResumesAtTheBranch. -/
theorem witness_retResumes : ∃ t, branching.mem.wf ∧ branching.fault = none ∧ branching.pc.toNat < 65535 ∧
    takesBranch (.branchEqual 0 0 8) branching = true ∧ exec (.branchEqual 0 0 8) branching = .next t ∧ t.fault = none :=
  ⟨_, by decide, rfl, by decide, by decide, rfl, rfl⟩

/-- NextFetchSeesTheStore, at the last pc it speaks of. -/
theorem witness_nextFetch : (start 65532 0 [] []).mem.wf ∧ (start 65532 0 [] []).pc.toNat + 3 < 65536 := by decide

/-- OnlyOperandOneIsWritten: NOT_CONST R0 and the register S0. -/
theorem witness_onlyOperandOne : ∃ t, State.reset.fault = none ∧ exec (.notConst 0 0 1) State.reset = .next t ∧
    t.fault = none ∧ ∀ c, destinationCode (.notConst 0 0 1) = some c → c ≠ codeOf (regS 0) :=
  ⟨_, rfl, rfl, rfl, fun c h => by cases h; decide⟩

/-- OnlyStoresAndPushesWriteMemory: a store at 0 and the address 65535; and a taken branch with the slot at 65535. -/
theorem witness_onlyStores : (∃ t, exec (.storeWord 0 0) State.reset = .next t ∧ t.fault = none ∧
    storeAddress (.storeWord 0 0) State.reset ≠ some 65535) ∧
    storeAddress (.branchEqual 0 0 8) branching = some 65535 := ⟨⟨_, rfl, rfl, by decide⟩, by decide⟩

/-- OnlyBranchesAndRetMoveTheStack. -/
theorem witness_stackMoves : (∃ t, exec (.branchEqual 0 0 8) branching = .next t ∧ t.fault = none) ∧
    (∃ t, exec (.ret 0 0) branching = .next t ∧ t.fault = none) := ⟨⟨_, rfl, rfl⟩, ⟨_, rfl, rfl⟩⟩

/-- ZeroMemoryRunsAsNops: one NOP up to 65536. -/
theorem witness_zeroMemory : (start 65534 0 [] []).fault = none ∧ (start 65534 0 [] []).pc.toNat + 2 * 1 = 65536 ∧
    ∀ a, (start 65534 0 [] []).pc.toNat ≤ a → a < (start 65534 0 [] []).pc.toNat + 2 * 1 →
      (start 65534 0 [] []).word a = 0 := ⟨rfl, by decide, fun _ _ _ => rfl⟩

/-- JumpToItselfStaysPut: JUMP 65534 at 65534. -/
theorem witness_jumpToItself :
    let s := start 65534 0 [] [(65534, 0xA000), (65535, 0xFFFE)]
    s.fault = none ∧ s.pc.toNat < 65535 ∧ decode (s.word s.pc.toNat) (s.word (s.pc.toNat + 1)) =
      .jump (codeOf (regR 0)) (codeOf (regR 0)) (BitVec.ofNat 16 s.pc.toNat) := by decide

/-- PulseCommandSteps: a pulse that completes and one that raises. -/
theorem witness_pulse : (∃ t, step State.reset = .next t ∧ t.fault = none) ∧
    (∃ t, step (start 65535 0 [] []) = .next t ∧ t.fault = some .outOfBounds) := ⟨⟨_, rfl, rfl⟩, ⟨_, rfl, rfl⟩⟩

/-- StackUnderflowIsNeverRaised: a RET on an empty stack, and a command that replies. -/
theorem witness_underflow : (start 10 0 [] [(10, 0xC000)]).fault = none ∧ (start 10 0 [] [(10, 0xC000)]).stackLast = 0 ∧
    fetch (start 10 0 [] [(10, 0xC000)]) = .ok (packWord0 12 (codeOf (regR 0)) (codeOf (regR 0)), 0) ∧
    runCommand .reset State.reset = .next (State.reset, .nothing) := ⟨rfl, rfl, rfl, rfl⟩

/-- LoadCommandCopies: an image that just fits and one that is a word too long. -/
theorem witness_load : State.reset.mem.wf ∧ State.reset.fault = none ∧ 65534 + [1#16, 2].length ≤ 65536 ∧
    65536 < 65535 + [1#16, 2].length := by decide

/-- OnlyResetClearsTheLatch. -/
theorem witness_latchStays : (latched .undefined).fault = some .undefined ∧ Command.reset ∉ [Command.pulse] ∧
    runCommands [.pulse] (latched .undefined) = .next (latched .undefined, [.result .undefined]) :=
  ⟨rfl, by decide, rfl⟩

end Sys2Proof.Tests
end

section
/-! Memory accesses by address: where a read and a write succeed, and what a write leaves unchanged. -/

namespace Sys2Proof.Machine

open Sys2Proof

/-- A write below 65536 replaces the memory and nothing else (00_scope.md R14). -/
theorem memWrite_eq {a : Nat} (h : a < 65536) (v : Word) (s : State) :
    memWrite a v s = .ok { s with mem := s.mem.write a v } := by simp [memWrite, h]

/-- A write from 65536 on is out of bounds (00_scope.md R14, 20_memory.md R43). -/
theorem memWrite_error {a : Nat} (h : 65536 ≤ a) (v : Word) (s : State) :
    memWrite a v s = .error .outOfBounds := by
  simp [memWrite, Nat.not_lt.2 h]

/-- The word just written is read back from the state. -/
theorem word_of_mem_write {s t : State} (hs : s.mem.wf) {a : Nat} {v : Word} (ht : t.mem = s.mem.write a v) :
    t.word a = v := by
  rw [State.word, ht, read_write_same hs]

/-- A memory write at `a` keeps the words at all other addresses. -/
theorem memKeptExcept_of_mem_write {s t : State} {a : Nat} {v : Word} (ht : t.mem = s.mem.write a v) :
    MemKeptExcept a s t := by
  intro b hb
  rw [State.word, ht, read_write_other hb, State.word]

/-- Settles O11: `memRead` and `memWrite` split at 65536, and a write replaces one word of the memory alone. -/
theorem memoryAccesses : Obligations.MemoryAccesses := by
  intro a v s
  refine ⟨fun h => memRead_eq h s, fun h hs => ?_, fun h => ⟨memRead_error h s, memWrite_error h v s⟩⟩
  exact ⟨_, memWrite_eq h v s, word_of_mem_write hs rfl, memKeptExcept_of_mem_write rfl, fun _ => rfl, ⟨rfl, rfl⟩, rfl⟩

end Sys2Proof.Machine
end

section
/-! Encoding: the layout of word 0, the registers operand codes name, and the errors that the fields of a fetched pair
raise (30_encoding.md R61, R62, R68, R69). -/

namespace Sys2Proof.Machine

open Sys2Proof

/-! ### Fields and operand codes as numbers -/

/-- Settles O3: the quotients and remainders of `fields_toNat` add up to the word. -/
theorem wordZeroLayout : Obligations.WordZeroLayout := by
  intro w0
  obtain ⟨hopc, h1, h2⟩ := fields_toNat w0
  omega

/-- The bank bits of an operand code are its upper two. -/
theorem bankBits_toNat (c : OperandCode) : c.bankBits.toNat = c.toNat / 16 := by
  have := c.isLt
  simp only [OperandCode.bankBits, BitVec.extractLsb'_toNat, Nat.shiftRight_eq_div_pow]
  omega

/-- Bank 0b11 holds the codes from 0x30 on. -/
theorem bankBits_eq_three_iff (c : OperandCode) : c.bankBits = 3 ↔ 0x30 ≤ c.toNat := by
  have := c.isLt
  rw [← BitVec.toNat_inj, bankBits_toNat, show (3 : BitVec 2).toNat = 3 from rfl]
  omega

/-- A register's code as a number: sixteen codes a bank. -/
theorem codeOf_toNat (n : RegName) : (codeOf n).toNat = (bankCode n.bank).toNat * 16 + n.index.val := by
  obtain ⟨b, i⟩ := n
  revert i
  cases b <;> decide

/-- A code with the number of a register's code resolves to that register. -/
theorem resolve_of_toNat {c : OperandCode} (n : RegName)
    (h : c.toNat = (bankCode n.bank).toNat * 16 + n.index.val) : resolve c = .ok n :=
  resolve_eq_ok.2 (BitVec.eq_of_toNat_eq (h.trans (codeOf_toNat n).symm))

/-- Settles O4: each valid code is the code of the register it is said to name, and the rest have bank 0b11. -/
theorem operandCodesNameRegisters : Obligations.OperandCodesNameRegisters := by
  intro c
  refine ⟨fun i h => resolve_of_toNat ⟨.r, i⟩ ?_, fun i h => resolve_of_toNat ⟨.s, i⟩ h,
    fun i h => resolve_of_toNat ⟨.t, i⟩ h, fun h => resolve_error_iff.2 ((bankBits_eq_three_iff c).2 h)⟩
  exact h.trans (Nat.zero_add _).symm

/-- The bank bits of operand1 are w0[11:10] (30_encoding.md R69). -/
theorem bankBits_operand1Field (w0 : Word) : (operand1Field w0).bankBits = w0.extractLsb' 10 2 := by
  apply BitVec.eq_of_toNat_eq
  rw [bankBits_toNat, (fields_toNat w0).2.1, BitVec.extractLsb'_toNat, Nat.shiftRight_eq_div_pow]
  omega

/-- The bank bits of operand2 are w0[5:4] (30_encoding.md R69). -/
theorem bankBits_operand2Field (w0 : Word) : (operand2Field w0).bankBits = w0.extractLsb' 4 2 := by
  apply BitVec.eq_of_toNat_eq
  rw [bankBits_toNat, (fields_toNat w0).2.2, BitVec.extractLsb'_toNat, Nat.shiftRight_eq_div_pow]
  omega

/-- The bank bits of operand3 are w1[15:14] (30_encoding.md R69). -/
theorem bankBits_operand3Field (w1 : Word) : (operand3Field w1).bankBits = w1.extractLsb' 14 2 := by
  apply BitVec.eq_of_toNat_eq
  rw [bankBits_toNat, operand3Field]
  simp only [BitVec.extractLsb'_toNat, Nat.shiftRight_eq_div_pow]
  omega

/-! ### The check a decoded pair fails -/

/-- The shared check passes exactly when neither code has bank 0b11. -/
theorem rejectOperands_eq_none_iff (c1 c2 : OperandCode) :
    rejectOperands c1 c2 = none ↔ c1.bankBits ≠ 3 ∧ c2.bankBits ≠ 3 := by
  by_cases h1 : c1.bankBits = 3#2 <;> simp [rejectOperands, OperandCode.valid, h1]

/-- The shared check never finds an undefined opcode. -/
theorem rejectOperands_ne_undefined (c1 c2 : OperandCode) : rejectOperands c1 c2 ≠ some .undefinedOpcode := by
  unfold rejectOperands
  split
  · simp
  · split <;> simp

/-- What a pair with a defined opcode is checked for: both operand codes, and for opcode 2 operand3 after them. -/
theorem rejection_decode {w0 : Word} (h : (opcodeField w0).toNat ≤ 12) (w1 : Word) :
    (decode w0 w1).rejection = (rejectOperands (operand1Field w0) (operand2Field w0)).or
      (if (opcodeField w0).toNat = 2 ∧ (operand3Field w1).bankBits = 3 then some .invalidOperand3 else none) := by
  -- One case for each row: in rows 0 to 12 both sides compute alike, and rows 13 to 15 contradict `h`.
  rcases decode_cases w0 w1 with ⟨ho, hd⟩ | ⟨ho, hd⟩ | ⟨ho, hd⟩ | ⟨ho, hd⟩ | ⟨ho, hd⟩ | ⟨ho, hd⟩ | ⟨ho, hd⟩ | ⟨ho, hd⟩ |
    ⟨ho, hd⟩ | ⟨ho, hd⟩ | ⟨ho, hd⟩ | ⟨ho, hd⟩ | ⟨ho, hd⟩ | ⟨ho, hd⟩ | ⟨ho, hd⟩ | ⟨ho, hd⟩ <;>
    simp [ho, hd, Instr.rejection, OperandCode.valid] at h ⊢

/-- A pair with a defined opcode passes its checks exactly when no checked field has bank 0b11. -/
theorem rejection_decode_eq_none_iff {w0 : Word} (h : (opcodeField w0).toNat ≤ 12) (w1 : Word) :
    (decode w0 w1).rejection = none ↔ ¬ ((operand1Field w0).bankBits = 3 ∨ (operand2Field w0).bankBits = 3 ∨
      (opcodeField w0).toNat = 2 ∧ (operand3Field w1).bankBits = 3) := by
  rw [rejection_decode h, Option.or_eq_none_iff, rejectOperands_eq_none_iff, and_assoc, not_or, not_or]
  simp

/-- A pair with a defined opcode is not rejected for its opcode. -/
theorem rejection_decode_ne_undefined {w0 : Word} (h : (opcodeField w0).toNat ≤ 12) (w1 : Word) :
    (decode w0 w1).rejection ≠ some .undefinedOpcode := by
  rw [rejection_decode h, Ne, Option.or_eq_some_iff]
  rintro (hu | ⟨-, hu⟩)
  · exact rejectOperands_ne_undefined _ _ hu
  · split at hu <;> cases hu

/-! ### The error an executed pair raises -/

/-- An unlatched core runs the pair it fetches. -/
theorem step_of_fetch {s : State} {w0 w1 : Word} (hs : s.fault = none) (hf : fetch s = .ok (w0, w1)) :
    step s = exec (decode w0 w1) s := by
  simp [step, pulse, hs, fetchExecute, hf]

/-- Raising one error raises no other. -/
theorem raises_raiseFatal_iff {e e' : ErrorKind} {s : State} : Raises e (raiseFatal e' s) ↔ e' = e := by
  simp [Raises, raiseFatal_eq]

/-- A completed instruction raises nothing. -/
theorem not_raises_next {e : ErrorKind} {t : State} (h : t.fault = none) : ¬ Raises e (.next t) := by
  simp [Raises, h]

/-- An instruction with a defined opcode raises InvalidOperand exactly when it fails a check. -/
theorem exec_raises_invalidOperand_iff {i : Instr} {s : State} (hs : s.fault = none)
    (hi : i.rejection ≠ some .undefinedOpcode) : Raises .invalidOperand (exec i s) ↔ i.rejection ≠ none := by
  cases exec_ends i s with
  | undefined h => exact absurd h hi
  | invalid why h _ hx => simp [hx, raises_raiseFatal_iff, h]
  | full h _ _ hx => simp [hx, raises_raiseFatal_iff, h]
  | beyond h _ _ hx => simp [hx, raises_raiseFatal_iff, h]
  | completes t h hx hc => simp [hx, not_raises_next (hc.fault_draws.1.trans hs), h]

/-- Settles O18: the pair raises InvalidOperand when it fails a check, and the checks look at these bits. -/
theorem invalidOperandExactly : Obligations.InvalidOperandExactly := by
  intro s w0 w1 hs hf hopc
  rw [step_of_fetch hs hf, exec_raises_invalidOperand_iff hs (rejection_decode_ne_undefined hopc w1), Ne,
    rejection_decode_eq_none_iff hopc, ← bankBits_operand1Field, ← bankBits_operand2Field, ← bankBits_operand3Field]
  exact Classical.not_not

/-- Opcodes 13, 14 and 15 select the three undefined rows (30_encoding.md R68). -/
theorem decode_undefined (w0 w1 : Word) : ((opcodeField w0).toNat = 13 → decode w0 w1 = .undefined13) ∧
    ((opcodeField w0).toNat = 14 → decode w0 w1 = .undefined14) ∧
    ((opcodeField w0).toNat = 15 → decode w0 w1 = .undefined15) := by
  refine ⟨fun h => ?_, fun h => ?_, fun h => ?_⟩ <;> simp [decode, h]

/-- The three undefined rows raise Undefined in every state (41_nop_undefined.md R101). -/
theorem exec_undefined_raises (s : State) : Raises .undefined (exec .undefined13 s) ∧
    Raises .undefined (exec .undefined14 s) ∧ Raises .undefined (exec .undefined15 s) :=
  ⟨raises_raiseFatal .undefined s, raises_raiseFatal .undefined s, raises_raiseFatal .undefined s⟩

/-- Settles O17: an opcode from 13 on is one of three, and each decodes to a row that raises Undefined. -/
theorem undefinedOpcodesRaise : Obligations.UndefinedOpcodesRaise := by
  refine ⟨fun s w0 w1 hs hf hopc => ?_, exec_undefined_raises, decode_undefined⟩
  obtain ⟨h13, h14, h15⟩ := exec_undefined_raises s
  obtain ⟨d13, d14, d15⟩ := decode_undefined w0 w1
  have hlt := (opcodeField w0).isLt
  have hrow : (opcodeField w0).toNat = 13 ∨ (opcodeField w0).toNat = 14 ∨ (opcodeField w0).toNat = 15 := by omega
  rw [step_of_fetch hs hf]
  rcases hrow with h | h | h
  · rwa [d13 h]
  · rwa [d14 h]
  · rwa [d15 h]

end Sys2Proof.Machine
end

section
/-! The pulse: which words the fetch reads, and where it fails (40_pulse.md R82). -/

namespace Sys2Proof.Machine

open Sys2Proof

/-- A core that is not latched raises OutOfBounds when it cannot fetch two words (40_pulse.md R82). -/
theorem step_raises_outOfBounds {s : State} (hs : s.fault = none) (hp : 65535 ≤ s.pc.toNat) :
    Raises .outOfBounds (step s) :=
  step_fetch_error hs hp ▸ raises_raiseFatal .outOfBounds s

/-- Settles O14: the fetch splits at pc 65535, and its failure is the error the step raises. -/
theorem fetchReadsTwoWords : Obligations.FetchReadsTwoWords := by
  intro s
  refine ⟨fun h => fetch_eq ?_, fun h => fetch_error ?_, fun hs h => step_raises_outOfBounds hs ?_⟩ <;> omega

end Sys2Proof.Machine
end

section
/-! The part every defined opcode shares, and NOP (41_nop_undefined.md R100). -/

namespace Sys2Proof.Machine

open Sys2Proof

/-- An instruction that starts with the shared operand check raises InvalidOperand on bank 0b11 in either code
(40_pulse.md R84, R85). -/
theorem withOperands_raises {c1 c2 : OperandCode} (h : c1.bankBits = 3 ∨ c2.bankBits = 3) (s : State)
    (body : Operands → Result) : Raises .invalidOperand (withOperands c1 c2 s body) :=
  withOperands_invalid h s body ▸ raises_raiseFatal .invalidOperand s

/-- A row meets the common rule once its opcode selects it and its instruction starts with the shared operand check. -/
theorem commonRule_of_withOperands {opc : Nat} {mk : OperandCode → OperandCode → Word → Instr}
    (hdecode : ∀ w0 w1, (opcodeField w0).toNat = opc → decode w0 w1 = mk (operand1Field w0) (operand2Field w0) w1)
    (hexec : ∀ c1 c2 w1 s, ∃ body, exec (mk c1 c2 w1) s = withOperands c1 c2 s body) : CommonRule opc mk := by
  refine ⟨hdecode, fun c1 c2 w1 s hbad => ?_, fun s => step_raises_outOfBounds⟩
  obtain ⟨body, hbody⟩ := hexec c1 c2 w1 s
  exact hbody ▸ withOperands_raises hbad s body

/-- The automatic advance moves the pc by 2 and keeps the rest of the state (40_pulse.md R88). -/
theorem onlyAdvances_advance (s : State) : OnlyAdvances s s.advance :=
  ⟨advance_pc s, advance_reg s, advance_word s, advance_stackLast s, advance_fault s⟩

/-- Opcode 0 selects the NOP row, whatever w1 holds (30_encoding.md R66). -/
theorem decode_nop {w0 : Word} (h : (opcodeField w0).toNat = 0) (w1 : Word) :
    decode w0 w1 = .nop (operand1Field w0) (operand2Field w0) := by
  simp [decode, h]

/-- Settles O23: NOP is the shared operand check followed by the automatic advance. -/
theorem nopOnlyAdvances : Obligations.NopOnlyAdvances := by
  refine ⟨commonRule_of_withOperands (fun w0 w1 h => decode_nop h w1) fun c1 c2 _ s => ⟨_, exec_nop c1 c2 s⟩,
    fun r1 r2 s => ⟨s.advance, ?_, onlyAdvances_advance s⟩⟩
  rw [exec_nop, withOperands_codes]

end Sys2Proof.Machine
end

section
/-! STORE_WORD and LOAD_WORD (42_load_store.md R110, R111). -/

namespace Sys2Proof.Machine

open Sys2Proof

/-! ### STORE_WORD -/

/-- Opcode 1 selects the STORE_WORD row, whatever w1 holds (30_encoding.md R66). -/
theorem decode_storeWord {w0 : Word} (h : (opcodeField w0).toNat = 1) (w1 : Word) :
    decode w0 w1 = .storeWord (operand1Field w0) (operand2Field w0) := by
  simp [decode, h]

/-- With two valid operand codes STORE_WORD always completes: its address is a word, so the store is in range
(20_memory.md R43). -/
theorem exec_storeWord_codes (r1 r2 : RegName) (s : State) :
    exec (.storeWord (codeOf r1) (codeOf r2)) s =
      .next (State.advance { s with mem := s.mem.write (s.reg r2).toNat (s.reg r1) }) := by
  rw [exec_storeWord, withOperands_codes, memWrite_word]

/-- Settles O24: STORE_WORD is one memory write at op2, which reads back, followed by the automatic advance. -/
theorem storeWordStores : Obligations.StoreWordStores := by
  refine ⟨commonRule_of_withOperands (fun _ w1 h => decode_storeWord h w1) fun c1 c2 _ s => ⟨_, exec_storeWord c1 c2 s⟩,
    fun r1 r2 s hs => ⟨_, exec_storeWord_codes r1 r2 s, ?_⟩⟩
  exact ⟨word_of_mem_write hs rfl, memKeptExcept_of_mem_write rfl, fun _ => rfl, ⟨rfl, rfl⟩, rfl⟩

/-! ### LOAD_WORD -/

/-- Opcode 11 selects the LOAD_WORD row, whatever w1 holds (30_encoding.md R66). -/
theorem decode_loadWord {w0 : Word} (h : (opcodeField w0).toNat = 11) (w1 : Word) :
    decode w0 w1 = .loadWord (operand1Field w0) (operand2Field w0) := by
  simp [decode, h]

/-- With two valid operand codes LOAD_WORD always completes: its address is a word, so the load is in range
(20_memory.md R43). -/
theorem exec_loadWord_codes (r1 r2 : RegName) (s : State) :
    exec (.loadWord (codeOf r1) (codeOf r2)) s = .next (s.setReg r1 (s.word (s.reg r2).toNat)).advance := by
  rw [exec_loadWord, withOperands_codes, memRead_word]

/-- A register write followed by the automatic advance changes that register and the pc alone. -/
theorem writesRegister_setReg_advance (d : RegName) (v : Word) (s : State) :
    WritesRegister d v s (s.setReg d v).advance :=
  ⟨reg_setReg_same s d v, fun _ hn => reg_setReg_other hn s v, setReg_word s d v, ⟨rfl, rfl⟩, rfl⟩

/-- Settles O25: LOAD_WORD is one register write, of the word at op2, followed by the automatic advance. -/
theorem loadWordLoads : Obligations.LoadWordLoads :=
  ⟨commonRule_of_withOperands (fun _ w1 h => decode_loadWord h w1) fun c1 c2 _ s => ⟨_, exec_loadWord c1 c2 s⟩,
    fun r1 r2 s => ⟨_, exec_loadWord_codes r1 r2 s, writesRegister_setReg_advance r1 _ s⟩⟩

end Sys2Proof.Machine
end

section
/-! The ALU instructions NAND_REG, NAND_CONST, NOT_REG and NOT_CONST (43_alu.md R121 to R125). -/

namespace Sys2Proof.Machine

open Sys2Proof

/-! ### NAND_REG -/

/-- Opcode 2 selects the NAND_REG row, with operand3 in w1[15:10] (30_encoding.md R63, R66). -/
theorem decode_nandReg {w0 : Word} (h : (opcodeField w0).toNat = 2) (w1 : Word) :
    decode w0 w1 = .nandReg (operand1Field w0) (operand2Field w0) (operand3Field w1) := by
  simp [decode, h]

/-- With three valid operand codes NAND_REG writes its destination and advances (43_alu.md R121). -/
theorem exec_nandReg_codes (r1 r2 r3 : RegName) (s : State) :
    exec (.nandReg (codeOf r1) (codeOf r2) (codeOf r3)) s =
      .next (s.setReg r1 (~~~(s.reg r2 &&& s.reg r3))).advance := by
  rw [exec_nandReg, withOperands_codes, withOperand3_code, writeResult, aluNand]

/-- Operand3 is checked once the first two codes have passed (43_alu.md R121). -/
theorem exec_nandReg_raises {c3 : OperandCode} (h : c3.bankBits = 3) (r1 r2 : RegName) (s : State) :
    Raises .invalidOperand (exec (.nandReg (codeOf r1) (codeOf r2) c3) s) := by
  rw [exec_nandReg, withOperands_codes, withOperand3_invalid h]
  exact raises_raiseFatal .invalidOperand s

/-- Settles O26: NAND_REG is the two operand checks, then one register write and the automatic advance. -/
theorem nandRegWritesNand : Obligations.NandRegWritesNand :=
  ⟨commonRule_of_withOperands (fun _ w1 h => decode_nandReg h w1) fun c1 c2 w1 s =>
      ⟨_, exec_nandReg c1 c2 (operand3Field w1) s⟩,
    fun r1 r2 _ s h => exec_nandReg_raises h r1 r2 s,
    fun r1 r2 r3 s => ⟨_, exec_nandReg_codes r1 r2 r3 s, writesRegister_setReg_advance r1 _ s⟩⟩

/-! ### NAND_CONST -/

/-- Opcode 3 selects the NAND_CONST row, with w1 as its literal (30_encoding.md R63, R66). -/
theorem decode_nandConst {w0 : Word} (h : (opcodeField w0).toNat = 3) (w1 : Word) :
    decode w0 w1 = .nandConst (operand1Field w0) (operand2Field w0) w1 := by
  simp [decode, h]

/-- With two valid operand codes NAND_CONST completes for every literal (43_alu.md R122). -/
theorem exec_nandConst_codes (r1 r2 : RegName) (imm : Word) (s : State) :
    exec (.nandConst (codeOf r1) (codeOf r2) imm) s = .next (s.setReg r1 (~~~(s.reg r2 &&& imm))).advance := by
  rw [exec_nandConst, withOperands_codes, writeResult, aluNand]

/-- Settles O27: NAND_CONST is the shared operand check, then one register write and the automatic advance. -/
theorem nandConstWritesNand : Obligations.NandConstWritesNand :=
  ⟨commonRule_of_withOperands (fun _ w1 h => decode_nandConst h w1) fun c1 c2 w1 s => ⟨_, exec_nandConst c1 c2 w1 s⟩,
    fun r1 r2 imm s => ⟨_, exec_nandConst_codes r1 r2 imm s, writesRegister_setReg_advance r1 _ s⟩⟩

/-! ### NOT_REG -/

/-- Opcode 4 selects the NOT_REG row, whatever w1 holds (30_encoding.md R66). -/
theorem decode_notReg {w0 : Word} (h : (opcodeField w0).toNat = 4) (w1 : Word) :
    decode w0 w1 = .notReg (operand1Field w0) (operand2Field w0) := by
  simp [decode, h]

/-- With two valid operand codes NOT_REG writes its destination and advances (43_alu.md R123). -/
theorem exec_notReg_codes (r1 r2 : RegName) (s : State) :
    exec (.notReg (codeOf r1) (codeOf r2)) s = .next (s.setReg r1 (~~~(s.reg r2))).advance := by
  rw [exec_notReg, withOperands_codes, writeResult, aluNot]

/-- Settles O28: NOT_REG is the shared operand check, then one register write and the automatic advance. -/
theorem notRegWritesComplement : Obligations.NotRegWritesComplement :=
  ⟨commonRule_of_withOperands (fun _ w1 h => decode_notReg h w1) fun c1 c2 _ s => ⟨_, exec_notReg c1 c2 s⟩,
    fun r1 r2 s => ⟨_, exec_notReg_codes r1 r2 s, writesRegister_setReg_advance r1 _ s⟩⟩

/-! ### NOT_CONST -/

/-- Opcode 5 selects the NOT_CONST row, with w1 as its literal (30_encoding.md R63, R66). -/
theorem decode_notConst {w0 : Word} (h : (opcodeField w0).toNat = 5) (w1 : Word) :
    decode w0 w1 = .notConst (operand1Field w0) (operand2Field w0) w1 := by
  simp [decode, h]

/-- With two valid operand codes NOT_CONST completes for every literal and does not use op2 (43_alu.md R124). -/
theorem exec_notConst_codes (r1 r2 : RegName) (imm : Word) (s : State) :
    exec (.notConst (codeOf r1) (codeOf r2) imm) s = .next (s.setReg r1 (~~~imm)).advance := by
  rw [exec_notConst, withOperands_codes, writeResult, aluNot]

/-- Settles O29: NOT_CONST is the shared operand check, then one register write and the automatic advance. -/
theorem notConstWritesComplement : Obligations.NotConstWritesComplement :=
  ⟨commonRule_of_withOperands (fun _ w1 h => decode_notConst h w1) fun c1 c2 w1 s => ⟨_, exec_notConst c1 c2 w1 s⟩,
    fun r1 r2 imm s => ⟨_, exec_notConst_codes r1 r2 imm s, writesRegister_setReg_advance r1 _ s⟩⟩

/-! ### Laws over the ALU instructions (43_alu.md R125) -/

/-- A register written just before the automatic advance reads back the word. -/
theorem reg_setReg_advance (s : State) (d : RegName) (v : Word) : (s.setReg d v).advance.reg d = v := by
  rw [advance_reg, reg_setReg_same]

/-- Settles O35: each instruction writes a complement, which undoes a complement before it and is 0xFFFF minus its
operand. -/
theorem doubleComplementRestores : Obligations.DoubleComplementRestores := by
  refine ⟨fun rd r2 c s => ⟨_, _, exec_notConst_codes rd r2 c s, exec_notReg_codes rd rd _, ?_⟩,
    fun r1 r2 r3 imm s => ⟨⟨_, exec_nandReg_codes r1 r2 r3 s, ?_⟩, ⟨_, exec_nandConst_codes r1 r2 imm s, ?_⟩⟩⟩
  · rw [reg_setReg_advance, reg_setReg_advance, BitVec.not_not]
  · rw [reg_setReg_advance]; exact BitVec.toNat_not
  · rw [reg_setReg_advance]; exact BitVec.toNat_not

end Sys2Proof.Machine
end

section
/-! Pop, JUMP and RET (44_control_flow.md R142, R147, R148). -/

namespace Sys2Proof.Machine

open Sys2Proof

/-! ### Pop -/

/-- Settles O33: a pop reads the slot one below stackLast, or slot 0 on an empty stack, and moves stackLast alone. -/
theorem popDecrementsThenReads : Obligations.PopDecrementsThenReads := by
  intro s hs
  refine ⟨_, _, pop_eq hs, rfl, (popSlot_toNat s).trans ?_, fun _ => rfl, fun _ => rfl, rfl, rfl⟩
  split <;> omega

/-! ### JUMP -/

/-- A jump leaves the pc at the target: every word fits the wider cursor. -/
theorem jumpTo_pc_toNat (s : State) (target : Word) : (s.jumpTo target).pc.toNat = target.toNat := by
  rw [jumpTo_pc, BitVec.toNat_setWidth_of_le (by decide)]

/-- Opcode 10 selects the JUMP row, with w1 as the target (30_encoding.md R64, R66). -/
theorem decode_jump {w0 : Word} (h : (opcodeField w0).toNat = 10) (w1 : Word) :
    decode w0 w1 = .jump (operand1Field w0) (operand2Field w0) w1 := by
  simp [decode, h]

/-- With two valid operand codes JUMP completes for every target and uses neither register (44_control_flow.md R147). -/
theorem exec_jump_codes (r1 r2 : RegName) (target : Word) (s : State) :
    exec (.jump (codeOf r1) (codeOf r2) target) s = .next (s.jumpTo target) := by
  rw [exec_jump, withOperands_codes]

/-- Settles O31: JUMP is the shared operand check followed by one move of the pc. -/
theorem jumpSetsPc : Obligations.JumpSetsPc :=
  ⟨commonRule_of_withOperands (fun _ w1 h => decode_jump h w1) fun c1 c2 w1 s => ⟨_, exec_jump c1 c2 w1 s⟩,
    fun r1 r2 target s => ⟨_, exec_jump_codes r1 r2 target s, jumpTo_pc_toNat s target, jumpTo_reg s target,
      jumpTo_word s target, jumpTo_stackLast s target, jumpTo_fault s target⟩⟩

/-! ### RET -/

/-- Opcode 12 selects the RET row, whatever w1 holds (30_encoding.md R66). -/
theorem decode_ret {w0 : Word} (h : (opcodeField w0).toNat = 12) (w1 : Word) :
    decode w0 w1 = .ret (operand1Field w0) (operand2Field w0) := by
  simp [decode, h]

/-- With two valid operand codes and stackLast in range RET completes: it pops the word it jumps to
(44_control_flow.md R148). -/
theorem exec_ret_codes (r1 r2 : RegName) {s : State} (hs : s.stackLast.toNat ≤ 65536) :
    exec (.ret (codeOf r1) (codeOf r2)) s =
      .next (State.jumpTo { s with stackLast := s.popSlot } (s.word s.popSlot.toNat)) := by
  rw [exec_ret, withOperands_codes, pop_eq hs]

/-- Settles O32: RET is a pop followed by a jump to the popped word; the slot popped is stackLast - 1, which on an empty
stack is 0 again. -/
theorem retPopsPc : Obligations.RetPopsPc := by
  refine ⟨commonRule_of_withOperands (fun _ w1 h => decode_ret h w1) fun c1 c2 _ s => ⟨_, exec_ret c1 c2 s⟩,
    fun r1 r2 s hs => ⟨_, exec_ret_codes r1 r2 hs, ?_, popSlot_toNat s, fun _ => rfl, fun _ => rfl, rfl⟩⟩
  rw [jumpTo_pc_toNat, popSlot_toNat]

end Sys2Proof.Machine
end

section
/-! The result codes commands return, and RET on an empty stack (60_exceptions.md R171, R174). -/

namespace Sys2Proof.Machine

open Sys2Proof

/-! ### The pulse of a RET on an empty stack -/

/-- An unlatched PULSE returns the code of the latch its step leaves (60_exceptions.md R171). -/
theorem runCommand_pulse_of_step {s t : State} (h : step s = .next t) :
    runCommand .pulse s = .next (t, .result (codeOfLatch t.fault)) := by
  simp [runCommand, pulseCommand, h]

/-- A word 0 packed with opcode 12 decodes to RET of the packed operand codes, whatever w1 holds. -/
theorem decode_packWord0_ret (c1 c2 : OperandCode) (w1 : Word) : decode (packWord0 12 c1 c2) w1 = .ret c1 c2 := by
  rw [decode_ret (congrArg BitVec.toNat (opcodeField_packWord0 12 c1 c2)), operand1Field_packWord0,
    operand2Field_packWord0]

/-- On an empty stack a pop reads slot 0, which is stackLast itself (44_control_flow.md R142). -/
theorem popSlot_of_empty {s : State} (h : s.stackLast = 0) : s.popSlot = 0 := by
  apply BitVec.eq_of_toNat_eq
  rw [popSlot_toNat, h]
  rfl

/-- On an empty stack RET jumps to the word at address 0 and changes nothing else (60_exceptions.md R174). -/
theorem exec_ret_of_empty (r1 r2 : RegName) {s : State} (h : s.stackLast = 0) :
    exec (.ret (codeOf r1) (codeOf r2)) s = .next (s.jumpTo (s.word 0)) := by
  have hsame : { s with stackLast := s.popSlot } = s := by rw [popSlot_of_empty h, ← h]
  rw [exec_ret_codes r1 r2 (by simp [h]), hsame, popSlot_of_empty h]
  rfl

/-! ### The codes a command can return -/

/-- LOAD returns OK or OutOfBounds, by whether the image fits (70_reset_and_hazards.md R195). -/
theorem loadImage_code (words : List Word) (offset : Nat) (s : State) :
    (loadImage words offset s).2 = if offset + words.length ≤ 65536 then .ok else .outOfBounds := by
  unfold loadImage
  split
  · cases s.fault <;> rfl
  · rfl

/-- LOAD_REGS returns OK, or the code of the error its bank bits raise (70_reset_and_hazards.md R194). -/
theorem loadRegisters_code (bank : BitVec 2) (values : Vector Word 16) (s : State) :
    (∃ b, bankOfBits bank = .ok b ∧ (loadRegisters bank values s).2 = .ok) ∨
    (∃ e, bankOfBits bank = .error e ∧ (loadRegisters bank values s).2 = codeOfKind e) := by
  unfold loadRegisters
  cases bankOfBits bank with
  | ok b => exact .inl ⟨b, rfl, by cases s.fault <;> rfl⟩
  | error e => exact .inr ⟨e, rfl, rfl⟩

/-- Every result a command returns is the code of a latch: OK for NONE, or the code of an error kind the core raises
(60_exceptions.md R171). -/
theorem runCommand_result {c : Command} {s t : State} {code : ResultCode}
    (h : runCommand c s = .next (t, .result code)) : ∃ latch, code = codeOfLatch latch := by
  cases c with
  | pulse =>
    cases hs : step s with
    | next u => rw [runCommand_pulse_of_step hs] at h; cases h; exact ⟨_, rfl⟩
    | fault why =>
      obtain ⟨kind⟩ := why
      simp only [runCommand, pulseCommand, hs] at h
      cases h
      exact ⟨some kind, rfl⟩
    | refused why => simp [runCommand, pulseCommand, hs] at h
  | reset => cases h
  | load words offset =>
    cases h
    rw [loadImage_code]
    split
    · exact ⟨none, rfl⟩
    · exact ⟨some .outOfBounds, rfl⟩
  | loadRegs bank values =>
    cases h
    rcases loadRegisters_code bank values s with ⟨_, _, hok⟩ | ⟨e, _, he⟩
    · exact ⟨none, hok⟩
    · exact ⟨some e, he⟩
  | snapshot => cases h

/-- StackUnderflow is the code of no latch: no error kind the core raises has it (60_exceptions.md R174). -/
theorem codeOfLatch_ne_stackUnderflow (latch : Option ErrorKind) : codeOfLatch latch ≠ .stackUnderflow := by
  cases latch with
  | none => simp [codeOfLatch]
  | some e => cases e <;> simp [codeOfLatch, codeOfKind]

/-- Settles O46: RET on an empty stack jumps to mem[0] with the latch still NONE, and every result is the code of a
latch, which StackUnderflow never is. -/
theorem stackUnderflowIsNeverRaised : Obligations.StackUnderflowIsNeverRaised := by
  refine ⟨fun s r1 r2 w1 hs hempty hf => ⟨s.jumpTo (s.word 0), ?_, jumpTo_pc_toNat s _, hempty⟩, ?_⟩
  · have hstep : step s = .next (s.jumpTo (s.word 0)) := by
      rw [step_of_fetch hs hf, decode_packWord0_ret, exec_ret_of_empty r1 r2 hempty]
    rw [runCommand_pulse_of_step hstep, jumpTo_fault, hs, codeOfLatch]
  · rintro c s t _ h rfl
    obtain ⟨latch, hcode⟩ := runCommand_result h
    exact codeOfLatch_ne_stackUnderflow latch hcode.symm

end Sys2Proof.Machine
end

section
/-! Decoder and encoder over all instructions and all word pairs (30_encoding.md sections 1 to 4). -/

namespace Sys2Proof.Machine

open Sys2Proof

/-! ### Decode and encode -/

/-- Settles O1: in each row the fields of the packed words read back what was packed. -/
theorem decodeInvertsEncode : Obligations.DecodeInvertsEncode := by
  intro i
  -- One case for each row: its opcode selects it again, and its operands are the packed fields.
  cases i <;>
    simp [encode, decode, opcodeField_packWord0, operand1Field_packWord0, operand2Field_packWord0,
      operand3Field_packOperand3]

/-- What a pair decodes to is encoded from the pair's own fields. Word 0: an undefined row keeps the opcode alone, a defined
row all three fields. Word 1: operand3 alone in the REG form, w1 itself in the CONST form, 0 otherwise (30_encoding.md
R63). -/
theorem encode_decode (w0 w1 : Word) : encode (decode w0 w1) =
    (if 13 ≤ (opcodeField w0).toNat then packWord0 (opcodeField w0) 0 0
      else packWord0 (opcodeField w0) (operand1Field w0) (operand2Field w0),
     if (opcodeField w0).toNat = 2 then packOperand3 (operand3Field w1)
      else if (opcodeField w0).toNat ∈ [3, 5, 6, 7, 8, 9, 10] then w1 else 0) := by
  -- One case for each row, in which the opcode is a numeral and both sides compute.
  rcases decode_cases w0 w1 with ⟨ho, hd⟩ | ⟨ho, hd⟩ | ⟨ho, hd⟩ | ⟨ho, hd⟩ | ⟨ho, hd⟩ | ⟨ho, hd⟩ | ⟨ho, hd⟩ | ⟨ho, hd⟩ |
    ⟨ho, hd⟩ | ⟨ho, hd⟩ | ⟨ho, hd⟩ | ⟨ho, hd⟩ | ⟨ho, hd⟩ | ⟨ho, hd⟩ | ⟨ho, hd⟩ | ⟨ho, hd⟩ <;>
    simp [ho, hd, encode]

/-- Settles O2: packing the fields of a word gives it back, and packing only some of them is masking it. -/
theorem encodeInvertsDecode : Obligations.EncodeInvertsDecode := by
  intro w0 w1
  rw [encode_decode, packWord0_opcode, packWord0_fields, packOperand3_field]

/-! ### The class of a word pair -/

/-- The class of a pair is an error exactly when the decoded instruction fails that check. -/
theorem classify_eq_error_iff {w0 w1 : Word} {why : Rejection} :
    classify w0 w1 = .error why ↔ (decode w0 w1).rejection = some why := by
  unfold classify
  cases (decode w0 w1).rejection <;> simp

/-- The class of a pair is what it decodes to exactly when that passes its checks. -/
theorem classify_eq_ok_iff {w0 w1 : Word} : classify w0 w1 = .ok (decode w0 w1) ↔ (decode w0 w1).rejection = none := by
  unfold classify
  cases (decode w0 w1).rejection <;> simp

/-- The opcodes of the undefined rows, one by one. -/
theorem undefined_opcode_cases {w0 : Word} (h : 13 ≤ (opcodeField w0).toNat) :
    (opcodeField w0).toNat = 13 ∨ (opcodeField w0).toNat = 14 ∨ (opcodeField w0).toNat = 15 := by
  have := (opcodeField w0).isLt
  omega

/-- A pair with opcode 13, 14 or 15 is rejected for its opcode (30_encoding.md R68). -/
theorem rejection_decode_undefined {w0 : Word} (h : 13 ≤ (opcodeField w0).toNat) (w1 : Word) :
    (decode w0 w1).rejection = some .undefinedOpcode := by
  obtain ⟨d13, d14, d15⟩ := decode_undefined w0 w1
  rcases undefined_opcode_cases h with h | h | h
  · rw [d13 h]; rfl
  · rw [d14 h]; rfl
  · rw [d15 h]; rfl

/-- The shared check looks at operand1 before operand2 (40_pulse.md R90). -/
theorem rejectOperands_eq (c1 c2 : OperandCode) : rejectOperands c1 c2 =
    if c1.bankBits = 3 then some .invalidOperand1 else if c2.bankBits = 3 then some .invalidOperand2 else none := by
  simp [rejectOperands, OperandCode.valid]

/-- The first check any pair fails: the opcode, operand1, operand2, and operand3 of NAND_REG (40_pulse.md R90). -/
theorem rejection_decode_eq (w0 w1 : Word) : (decode w0 w1).rejection =
    if 13 ≤ (opcodeField w0).toNat then some .undefinedOpcode
    else if (operand1Field w0).bankBits = 3 then some .invalidOperand1
    else if (operand2Field w0).bankBits = 3 then some .invalidOperand2
    else if (opcodeField w0).toNat = 2 ∧ (operand3Field w1).bankBits = 3 then some .invalidOperand3 else none := by
  by_cases hopc : 13 ≤ (opcodeField w0).toNat
  · rw [rejection_decode_undefined hopc, if_pos hopc]
  · rw [rejection_decode (by omega), rejectOperands_eq, if_neg hopc]
    split
    · rfl
    · split <;> rfl

/-- Settles O6: the five classes are the five ends of the chain of checks. -/
theorem everyPairHasOneClass : Obligations.EveryPairHasOneClass := by
  intro w0 w1
  simp only [classify_eq_error_iff, classify_eq_ok_iff, rejection_decode_eq, bankBits_operand1Field,
    bankBits_operand2Field, bankBits_operand3Field, BitVec.ofNat_eq_ofNat]
  by_cases hopc : 13 ≤ (opcodeField w0).toNat
  · simp [hopc, Nat.not_le.2 hopc]
  have hle : (opcodeField w0).toNat ≤ 12 := by omega
  by_cases h1 : w0.extractLsb' 10 2 = 3#2
  · simp [hopc, hle, h1]
  by_cases h2 : w0.extractLsb' 4 2 = 3#2
  · simp [hopc, hle, h1, h2]
  by_cases h3 : (opcodeField w0).toNat = 2 ∧ w1.extractLsb' 14 2 = 3#2
  · simp [h1, h2, h3]
  · simp [hopc, hle, h1, h2, h3]

/-! ### Fixed words and ignored bits -/

/-- Settles O5: each of the spec's words is run through the decoder. -/
theorem specWordsDecode : Obligations.SpecWordsDecode := by
  unfold Obligations.SpecWordsDecode
  decide

/-- Settles O7: a row without a word 1 form drops w1, the REG form reads operand3 of it, and an undefined row drops all
but the opcode. -/
theorem ignoredBitsChangeNothing : Obligations.IgnoredBitsChangeNothing := by
  refine fun w0 v w => ⟨fun h => ?_, fun h h3 => ?_, fun u h hu => ?_⟩
  · simp only [List.mem_cons, List.not_mem_nil, or_false] at h
    rcases h with h | h | h | h | h | h | h | h <;> simp [decode, h]
  · rw [decode_nandReg h, decode_nandReg h, h3]
  · rcases undefined_opcode_cases h with h | h | h <;> simp [decode, hu, h]

end Sys2Proof.Machine
end

section
/-! Reset, the registers, and memory as a canonical list (10_state.md sections 2 and 7, 20_memory.md section 2). -/

namespace Sys2Proof.Machine

open Sys2Proof

/-- Settles O8: every field of the reset state is zero, so the fetch reads at address 0. -/
theorem resetState : Obligations.ResetState :=
  ⟨get_zero, read_nil, rfl, rfl, rfl, rfl, fetch_eq (by decide)⟩

/-- Settles O9: the empty memory is canonical and both cursors are 0. -/
theorem resetMeetsInvariant : Obligations.ResetMeetsInvariant :=
  ⟨reset_mem_wf, by decide, by decide⟩

/-- Settles O10: read after write to the same and to another register. -/
theorem registersHoldAndDoNotAlias : Obligations.RegistersHoldAndDoNotAlias :=
  fun s n v => ⟨reg_setReg_same s n v, fun _ h => reg_setReg_other h s v⟩

/-! ### Canonical memories -/

/-- A listed head is read at its address. -/
theorem read_head (k : Nat) (x : Word) (m : Memory) : Memory.read ((k, x) :: m) k = x := if_pos rfl

/-- Past the head's address the tail is read. -/
theorem read_tail {k a : Nat} (h : k ≠ a) (x : Word) (m : Memory) : Memory.read ((k, x) :: m) a = m.read a := if_neg h

/-- A memory that reads as a canonical one does at the first address of that one lists some address up to it: below all
its addresses a memory reads as unwritten, and no canonical cell holds that. -/
theorem exists_le_of_read_eq {k : Nat} {x : Word} {m m' : Memory} (hm : Memory.wf ((k, x) :: m))
    (h : Memory.read ((k, x) :: m) k = Memory.read m' k) : ∃ c ∈ m', c.1 ≤ k := by
  obtain ⟨-, -, -, hx⟩ := wf_tail hm
  refine Classical.byContradiction fun hnone => hx ?_
  have hall : ∀ c ∈ m', k < c.1 := fun c hc => Nat.lt_of_not_le fun hle => hnone ⟨c, hc, hle⟩
  rwa [read_head, read_of_lt_all hall] at h

/-- The first address of a canonical memory is its least. -/
theorem head_le {c d : Nat × Word} {m : Memory} (hm : Memory.wf (c :: m)) (hd : d ∈ c :: m) : c.1 ≤ d.1 := by
  obtain ⟨-, hlt, -⟩ := wf_tail hm
  rcases List.mem_cons.1 hd with rfl | hd
  · exact Nat.le_refl _
  · exact Nat.le_of_lt (hlt d hd)

/-- Of two canonical memories that read alike, the first cells are equal and the tails read alike. -/
theorem cons_of_read_eq {c1 c2 : Nat × Word} {m1 m2 : Memory} (h1 : Memory.wf (c1 :: m1)) (h2 : Memory.wf (c2 :: m2))
    (h : ∀ a, Memory.read (c1 :: m1) a = Memory.read (c2 :: m2) a) : c1 = c2 ∧ ∀ a, m1.read a = m2.read a := by
  obtain ⟨k1, x1⟩ := c1
  obtain ⟨k2, x2⟩ := c2
  obtain ⟨d, hd, hd1⟩ := exists_le_of_read_eq h1 (h k1)
  obtain ⟨e, he, he2⟩ := exists_le_of_read_eq h2 (h k2).symm
  obtain rfl : k1 = k2 := Nat.le_antisymm (Nat.le_trans (head_le h1 he) he2) (Nat.le_trans (head_le h2 hd) hd1)
  have hx := h k1
  rw [read_head, read_head] at hx
  refine ⟨by rw [hx], fun a => ?_⟩
  obtain ⟨-, hlt1, -⟩ := wf_tail h1
  obtain ⟨-, hlt2, -⟩ := wf_tail h2
  by_cases ha : k1 = a
  · subst ha
    rw [read_of_lt_all hlt1, read_of_lt_all hlt2]
  · simpa [read_tail ha] using h a

/-- Settles O12, by induction on the one list along the other: a first cell is the least address that does not read as
unwritten, so it is the same in both. -/
theorem canonicalMemoriesAreUnique : Obligations.CanonicalMemoriesAreUnique := by
  intro m1
  induction m1 with
  | nil =>
    intro m2 _ h2 h
    cases m2 with
    | nil => rfl
    | cons c m2 =>
      obtain ⟨d, hd, -⟩ := exists_le_of_read_eq h2 (h c.1).symm
      cases hd
  | cons c1 m1 ih =>
    intro m2 h1 h2 h
    cases m2 with
    | nil =>
      obtain ⟨d, hd, -⟩ := exists_le_of_read_eq h1 (h c1.1)
      cases hd
    | cons c2 m2 =>
      obtain ⟨hc, htail⟩ := cons_of_read_eq h1 h2 h
      rw [hc, ih m2 (wf_tail h1).1 (wf_tail h2).1 htail]

end Sys2Proof.Machine
end

section
/-! The pulse: which instruction a step runs, how it ends, and the invariant every step keeps (40_pulse.md section 1). -/

namespace Sys2Proof.Machine

open Sys2Proof

/-! ### The instruction a step runs -/

/-- A PULSE of a latched core returns the latched kind and changes nothing (40_pulse.md R80). -/
theorem runCommand_pulse_latched {s : State} {k : ErrorKind} (h : s.fault = some k) :
    runCommand .pulse s = .next (s, .result (codeOfKind k)) := by
  simp [runCommand, pulseCommand, step_latched h]

/-- Settles O13: the latch is looked at before the fetch. -/
theorem latchedCoreDoesNotStep : Obligations.LatchedCoreDoesNotStep :=
  fun _ _ h => ⟨step_latched h, runCommand_pulse_latched h⟩

/-- Settles O15: below 65535 the fetch answers the words at pc and pc + 1. -/
theorem stepRunsTheDecodedInstruction : Obligations.StepRunsTheDecodedInstruction := by
  intro s i hs hp hd
  rw [step_of_fetch hs (fetch_eq hp), hd]

/-- A placed pair is what the next fetch reads: the pc is one from which two words can be fetched, and the second write
leaves the first word alone. -/
theorem fetch_placePair {s : State} (hs : s.mem.wf) (w0 w1 : Word) : fetch (s.placePair w0 w1) = .ok (w0, w1) := by
  have hp : (s.placePair w0 w1).pc.toNat < 65535 := by
    by_cases h : s.pc.toNat + 1 < 65536
    · simp only [State.placePair, if_pos h]; omega
    · simp [State.placePair, h]
  have hmem : (s.placePair w0 w1).mem = (s.mem.write (s.placePair w0 w1).pc.toNat w0).write
      ((s.placePair w0 w1).pc.toNat + 1) w1 := rfl
  have hwf := write_wf hs (show (s.placePair w0 w1).pc.toNat < 65536 by omega) w0
  rw [fetch_eq hp, State.word, State.word, hmem, read_write_same hwf, read_write_other (by omega), read_write_same hs]

/-- Settles O16: placing clears the latch, and the next fetch reads the placed pair. -/
theorem placedInstructionRunsNext : Obligations.PlacedInstructionRunsNext := by
  intro s w i hs hw
  obtain rfl := Option.some.inj hw
  exact step_of_fetch rfl (fetch_placePair hs _ _)

/-! ### How a step ends -/

/-- Every instruction answers a next state: it raises an error, or it completes. -/
theorem exec_answers (i : Instr) (s : State) :
    (∃ e, exec i s = .next (s.latch e)) ∨ ∃ t, exec i s = .next t ∧ Completes i s t := by
  cases exec_ends i s with
  | undefined _ hx => exact .inl ⟨_, hx⟩
  | invalid _ _ _ hx => exact .inl ⟨_, hx⟩
  | full _ _ _ hx => exact .inl ⟨_, hx⟩
  | beyond _ _ _ hx => exact .inl ⟨_, hx⟩
  | completes t _ hx hc => exact .inr ⟨t, hx, hc⟩

/-- Every step of an unlatched core answers a next state: it raises an error, or it has fetched an instruction and
completes it. -/
theorem step_answers {s : State} (hs : s.fault = none) :
    (∃ e, step s = .next (s.latch e)) ∨
    ∃ i t, step s = .next t ∧ s.pc.toNat < 65535 ∧ Completes i s t := by
  by_cases hp : s.pc.toNat < 65535
  · rw [step_of_fetch hs (fetch_eq hp)]
    exact (exec_answers _ s).imp id fun ⟨t, hx, hc⟩ => ⟨_, t, hx, hp, hc⟩
  · exact .inl ⟨_, step_fetch_error hs (Nat.not_lt.1 hp)⟩

/-- Only an unlatched core steps (40_pulse.md R80). -/
theorem fault_of_step {s t : State} (h : step s = .next t) : s.fault = none := by
  cases hs : s.fault with
  | none => rfl
  | some k => rw [step_latched hs] at h; cases h

/-- Settles O21: a latched core answers the fault `latched`, and an unlatched one always a state. -/
theorem everyPulseAnswersAState : Obligations.EveryPulseAnswersAState := by
  refine fun s => ⟨fun ⟨_, h⟩ => fault_of_step h, fun hs => ?_⟩
  rcases step_answers hs with ⟨_, h⟩ | ⟨_, t, h, -⟩
  · exact ⟨_, h⟩
  · exact ⟨t, h⟩

/-! ### The invariant -/

/-- A word makes a pc in range. -/
theorem jumpTo_pc_le (s : State) (target : Word) : (s.jumpTo target).pc.toNat ≤ 65536 := by
  have := target.isLt
  rw [jumpTo_pc_toNat]
  omega

/-- After a fetch the automatic advance is exact: pc + 2 does not wrap (40_pulse.md R88). -/
theorem advance_pc_toNat {s : State} (h : s.pc.toNat < 65535) : s.advance.pc.toNat = s.pc.toNat + 2 := by
  rw [advance_pc, BitVec.toNat_add, show (2 : Cursor).toNat = 2 from rfl]
  omega

/-- With room on the stack the push is exact: stackLast + 1 does not wrap (44_control_flow.md R141). -/
theorem succ_stackLast_toNat {s : State} (h : s.stackLast.toNat < 65536) :
    (s.stackLast + 1).toNat = s.stackLast.toNat + 1 := by
  rw [BitVec.toNat_add, show (1 : Cursor).toNat = 1 from rfl]
  omega

/-- The free values after a fatal error are in range, and free memory is canonical (log 6). -/
theorem inv_latch (s : State) (e : ErrorKind) : (s.latch e).Inv :=
  ⟨freeMemory_wf _, freeCursor_le _, freeCursor_le _⟩

/-- A completed instruction that was fetched keeps the invariant. -/
theorem Completes.inv {i : Instr} {s t : State} (h : Completes i s t) (hs : s.Inv) (hp : s.pc.toNat < 65535) :
    t.Inv := by
  obtain ⟨hmem, hpc, hstack⟩ := hs
  have hadvance : s.advance.pc.toNat ≤ 65536 := by rw [advance_pc_toNat hp]; omega
  cases h with
  | advance => exact ⟨hmem, hadvance, hstack⟩
  | register => exact ⟨hmem, hadvance, hstack⟩
  | store c1 c2 a v => exact ⟨write_wf hmem a.isLt v, hadvance, hstack⟩
  | branch target _ hroom =>
    refine ⟨write_wf hmem hroom _, jumpTo_pc_le _ target, ?_⟩
    rw [jumpTo_stackLast, succ_stackLast_toNat hroom]
    exact hroom
  | jump c1 c2 target => exact ⟨hmem, jumpTo_pc_le s target, hstack⟩
  | ret =>
    refine ⟨hmem, jumpTo_pc_le _ _, ?_⟩
    rw [jumpTo_stackLast, popSlot_toNat]
    omega

/-- Settles O22: a step raises an error, whose free values meet the invariant, or completes what it fetched. -/
theorem stepKeepsInvariant : Obligations.StepKeepsInvariant := by
  intro s t hs hstep
  rcases step_answers (fault_of_step hstep) with ⟨e, h⟩ | ⟨i, u, h, hp, hc⟩
  · obtain rfl : t = s.latch e := raiseFatal_fault (h.symm.trans hstep)
    exact inv_latch s e
  · obtain rfl : u = t := Host.Outcome.next.inj (h.symm.trans hstep)
    exact hc.inv hs hp

end Sys2Proof.Machine
end

section
/-! Completed pulses: which error comes first, where the pc goes, and that no free value is used (40_pulse.md section 1,
60_exceptions.md section 1). -/

namespace Sys2Proof.Machine

open Sys2Proof
open Sys2Proof.Laws.EncodedOpcode (opcodeNumber)

/-! ### The order of the errors -/

/-- A completed instruction whose branch condition holds has pushed PC0 onto a stack with room and kept the registers. -/
theorem Completes.of_takesBranch {i : Instr} {s t : State} (h : Completes i s t) (hb : takesBranch i s = true) :
    s.stackLast.toNat < 65536 ∧ t.mem = s.mem.write s.stackLast.toNat s.pcWord ∧ t.stackLast = s.stackLast + 1 ∧
      t.regs = s.regs := by
  cases h with
  | advance h => rw [h] at hb; cases hb
  | register _ _ _ h => rw [h] at hb; cases hb
  | store _ _ _ _ hi => subst hi; cases hb
  | branch target _ hroom => exact ⟨hroom, rfl, rfl, rfl⟩
  | jump _ _ _ hi => subst hi; cases hb
  | ret _ _ hi => subst hi; cases hb

/-- A branch that passes its checks and is taken on a full stack raises OutOfBounds (44_control_flow.md R141). -/
theorem exec_raises_of_full {i : Instr} {s : State} (hr : i.rejection = none) (hb : takesBranch i s = true)
    (hfull : 65536 ≤ s.stackLast.toNat) : Raises .outOfBounds (exec i s) := by
  cases exec_ends i s with
  | undefined h => rw [hr] at h; cases h
  | invalid why h => rw [hr] at h; cases h
  | full _ _ _ hx => exact hx ▸ raises_raiseFatal _ s
  | beyond _ h => rw [hb] at h; cases h
  | completes t _ _ hc => exact absurd hfull (Nat.not_le.2 (hc.of_takesBranch hb).1)

/-- An instruction that passes its checks and is no branch taken on a full stack completes, stackLast being in range. -/
theorem exec_completes {i : Instr} {s : State} (hr : i.rejection = none)
    (hfull : ¬ (takesBranch i s = true ∧ 65536 ≤ s.stackLast.toNat)) (hs : s.stackLast.toNat ≤ 65536) :
    ∃ t, exec i s = .next t ∧ Completes i s t := by
  cases exec_ends i s with
  | undefined h => rw [hr] at h; cases h
  | invalid why h => rw [hr] at h; cases h
  | full _ hb hf => exact absurd ⟨hb, hf⟩ hfull
  | beyond _ _ hf => exact absurd hs (Nat.not_le.2 hf)
  | completes t _ hx hc => exact ⟨t, hx, hc⟩

/-- Settles O19: the fetch is tried first, then the checks in order, and the push of a taken branch comes last. -/
theorem errorsComeInOrder : Obligations.ErrorsComeInOrder := by
  refine fun s hs => ⟨step_raises_outOfBounds hs, fun w0 w1 hf => ?_⟩
  have hinvalid (hopc : (opcodeField w0).toNat < 13) (hbad : (operand1Field w0).bankBits = 3 ∨
      (operand2Field w0).bankBits = 3 ∨ (opcodeField w0).toNat = 2 ∧ (operand3Field w1).bankBits = 3) :
      Raises .invalidOperand (step s) := by
    rw [step_of_fetch hs hf, exec_raises_invalidOperand_iff hs (rejection_decode_ne_undefined (by omega) w1), Ne,
      rejection_decode_eq_none_iff (by omega)]
    exact not_not_intro hbad
  have hpasses (hopc : (opcodeField w0).toNat < 13) (h1 : (operand1Field w0).bankBits ≠ 3)
      (h2 : (operand2Field w0).bankBits ≠ 3)
      (h3 : ¬ ((opcodeField w0).toNat = 2 ∧ (operand3Field w1).bankBits = 3)) : (decode w0 w1).rejection = none :=
    (rejection_decode_eq_none_iff (by omega) w1).2 (by simp only [h1, h2, h3, or_self, not_false_iff])
  refine ⟨undefinedOpcodesRaise.1 s w0 w1 hs hf, fun hopc h => hinvalid hopc (.inl h),
    fun hopc _ h => hinvalid hopc (.inr (.inl h)), fun hopc _ _ h => hinvalid hopc (.inr (.inr h)), ?_, ?_⟩
  · intro hopc h1 h2 h3 ⟨hb, hfull⟩
    rw [step_of_fetch hs hf]
    exact exec_raises_of_full (hpasses hopc h1 h2 h3) hb hfull
  · intro hopc h1 h2 h3 hfull hstack
    obtain ⟨t, hx, hc⟩ := exec_completes (hpasses hopc h1 h2 h3) hfull hstack
    exact ⟨t, (step_of_fetch hs hf).trans hx, hc.fault_draws.1.trans hs⟩

/-! ### The advance of the pc -/

/-- A decoded instruction is of the row that the opcode field names (30_encoding.md R66). -/
theorem opcodeNumber_decode (w0 w1 : Word) : opcodeNumber (decode w0 w1) = opcodeField w0 := by
  rcases decode_cases w0 w1 with ⟨ho, hd⟩ | ⟨ho, hd⟩ | ⟨ho, hd⟩ | ⟨ho, hd⟩ | ⟨ho, hd⟩ | ⟨ho, hd⟩ | ⟨ho, hd⟩ | ⟨ho, hd⟩ |
    ⟨ho, hd⟩ | ⟨ho, hd⟩ | ⟨ho, hd⟩ | ⟨ho, hd⟩ | ⟨ho, hd⟩ | ⟨ho, hd⟩ | ⟨ho, hd⟩ | ⟨ho, hd⟩ <;>
    simp [ho, hd, opcodeNumber]

/-- Only opcodes 6 to 9 have a branch condition. -/
theorem opcodeNumber_of_takesBranch {i : Instr} {s : State} (h : takesBranch i s = true) :
    (opcodeNumber i).toNat ∈ [6, 7, 8, 9] := by
  revert h
  cases i <;> simp [takesBranch, opcodeNumber]

/-- A completed instruction whose opcode sets no pc advances it by 2 (40_pulse.md R88). -/
theorem Completes.pc_of_opcode {i : Instr} {s t : State} (h : Completes i s t)
    (hopc : (opcodeNumber i).toNat ∉ [6, 7, 8, 9, 10, 12]) : t.pc = s.advance.pc := by
  cases h with
  | advance => rfl
  | register => rfl
  | store => rfl
  | branch _ hb =>
    have := opcodeNumber_of_takesBranch hb
    simp only [List.mem_cons, List.not_mem_nil, or_false] at this hopc
    omega
  | jump _ _ _ hi => simp [hi, opcodeNumber] at hopc
  | ret _ _ hi => simp [hi, opcodeNumber] at hopc

/-- Settles O20: a completed pulse ran an instruction of the fetched opcode, whose advance does not wrap. -/
theorem otherOpcodesAdvanceByTwo : Obligations.OtherOpcodesAdvanceByTwo := by
  intro s t w0 w1 hs hf hstep ht hopc
  rw [step_of_fetch hs hf] at hstep
  obtain ⟨-, hc⟩ := completes_of_exec hstep ht
  rw [← opcodeNumber_decode w0 w1] at hopc
  rw [hc.pc_of_opcode hopc, advance_pc_toNat (fetch_ok hf).1]

/-! ### Free values -/

/-- The state with its draw counter at `n`. -/
def State.withDraws (s : State) (n : Nat) : State := { s with draws := n }

/-- A computation whose completed outcomes neither read nor move the draw counter (log 4). -/
def DrawFree (f : State → Result) : Prop :=
  ∀ (s t : State) (n : Nat), f s = .next t → t.fault = none → f (s.withDraws n) = .next (t.withDraws n)

/-- A raised error is no completed outcome. -/
theorem raiseFatal_not_completed {e : ErrorKind} {s t : State} (h : raiseFatal e s = .next t) : t.fault ≠ none := by
  simp [raiseFatal_fault h]

theorem drawFree_raiseFatal (e : ErrorKind) : DrawFree (raiseFatal e) :=
  fun _ _ _ h ht => absurd ht (raiseFatal_not_completed h)

/-- A state update that does not look at the draw counter and leaves it alone. -/
theorem drawFree_next {g : State → State} (hg : ∀ s n, g (s.withDraws n) = (g s).withDraws n) :
    DrawFree fun s => .next (g s) := by
  intro s t n h _
  obtain rfl := Host.Outcome.next.inj h
  exact congrArg _ (hg s n)

/-- The shared operand check reads registers only. -/
theorem drawFree_withOperands {c1 c2 : OperandCode} {body : State → Operands → Result}
    (hb : ∀ o, DrawFree fun s => body s o) : DrawFree fun s => withOperands c1 c2 s (body s) := by
  intro s t n h ht
  rcases withOperands_cases c1 c2 s (body s) with ⟨-, hx⟩ | ⟨r1, r2, rfl, rfl, hx⟩
  · exact absurd ht (raiseFatal_not_completed (hx.symm.trans h))
  · exact (withOperands_codes ..).trans (hb _ s t n (hx.symm.trans h) ht)

/-- The operand3 check reads a register only. -/
theorem drawFree_withOperand3 {c3 : OperandCode} {body : State → Word → Result}
    (hb : ∀ v, DrawFree fun s => body s v) : DrawFree fun s => withOperand3 c3 s (body s) := by
  intro s t n h ht
  rcases withOperand3_cases c3 s (body s) with ⟨-, hx⟩ | ⟨r3, rfl, hx⟩
  · exact absurd ht (raiseFatal_not_completed (hx.symm.trans h))
  · exact (withOperand3_code ..).trans (hb _ s t n (hx.symm.trans h) ht)

/-- A branch looks at the stack and the pc only. -/
theorem drawFree_branchWhen (taken : Bool) (target : Word) : DrawFree (branchWhen taken target) := by
  intro s t n h ht
  rcases branchWhen_cases taken target s with ⟨rfl, hx⟩ | ⟨rfl, hroom, hx⟩ | ⟨-, -, hx⟩
  · obtain rfl := Host.Outcome.next.inj (hx.symm.trans h)
    rfl
  · obtain rfl := Host.Outcome.next.inj (hx.symm.trans h)
    rw [branchWhen, if_pos rfl, push_room (s := s.withDraws n) hroom]
    rfl
  · exact absurd ht (raiseFatal_not_completed (hx.symm.trans h))

/-- An instruction that starts with the shared operand check uses a free value only if its body does. -/
theorem drawFree_exec_of_withOperands {i : Instr} {c1 c2 : OperandCode} {body : State → Operands → Result}
    (hx : ∀ s, exec i s = withOperands c1 c2 s (body s)) (hb : ∀ o, DrawFree fun s => body s o) : DrawFree (exec i) :=
  funext hx ▸ drawFree_withOperands hb

/-- A return looks at the stack only. -/
theorem drawFree_ret (c1 c2 : OperandCode) : DrawFree (exec (.ret c1 c2)) := by
  refine drawFree_exec_of_withOperands (exec_ret c1 c2) fun _ s t n h ht => ?_
  by_cases hs : s.stackLast.toNat ≤ 65536
  · simp only [pop_eq hs] at h
    obtain rfl := Host.Outcome.next.inj h
    simp only [pop_eq (s := s.withDraws n) hs]
    rfl
  · have hpop : pop s = .error .outOfBounds := by rw [pop, memRead_error (by rw [popSlot_toNat]; omega)]
    simp only [hpop] at h
    exact absurd ht (raiseFatal_not_completed h)

/-- Every instruction is made of parts that use no free value to complete. -/
theorem drawFree_exec (i : Instr) : DrawFree (exec i) := by
  cases i with
  | nop c1 c2 => exact drawFree_exec_of_withOperands (exec_nop c1 c2) fun _ => drawFree_next fun _ _ => rfl
  | storeWord c1 c2 =>
    refine drawFree_exec_of_withOperands (exec_storeWord c1 c2) fun o => ?_
    simp only [memWrite_word]
    exact drawFree_next fun _ _ => rfl
  | nandReg c1 c2 c3 =>
    exact drawFree_exec_of_withOperands (exec_nandReg c1 c2 c3) fun _ =>
      drawFree_withOperand3 fun _ => drawFree_next fun _ _ => rfl
  | nandConst c1 c2 imm =>
    exact drawFree_exec_of_withOperands (exec_nandConst c1 c2 imm) fun _ => drawFree_next fun _ _ => rfl
  | notReg c1 c2 => exact drawFree_exec_of_withOperands (exec_notReg c1 c2) fun _ => drawFree_next fun _ _ => rfl
  | notConst c1 c2 imm =>
    exact drawFree_exec_of_withOperands (exec_notConst c1 c2 imm) fun _ => drawFree_next fun _ _ => rfl
  | branchEqual c1 c2 target =>
    exact drawFree_exec_of_withOperands (exec_branchEqual c1 c2 target) fun _ => drawFree_branchWhen _ target
  | branchNotEqual c1 c2 target =>
    exact drawFree_exec_of_withOperands (exec_branchNotEqual c1 c2 target) fun _ => drawFree_branchWhen _ target
  | branchLess c1 c2 target =>
    exact drawFree_exec_of_withOperands (exec_branchLess c1 c2 target) fun _ => drawFree_branchWhen _ target
  | branchGreater c1 c2 target =>
    exact drawFree_exec_of_withOperands (exec_branchGreater c1 c2 target) fun _ => drawFree_branchWhen _ target
  | jump c1 c2 target =>
    exact drawFree_exec_of_withOperands (exec_jump c1 c2 target) fun _ => drawFree_next fun _ _ => rfl
  | loadWord c1 c2 =>
    refine drawFree_exec_of_withOperands (exec_loadWord c1 c2) fun o => ?_
    simp only [memRead_word]
    exact drawFree_next fun _ _ => rfl
  | ret c1 c2 => exact drawFree_ret c1 c2
  | undefined13 => exact drawFree_raiseFatal _
  | undefined14 => exact drawFree_raiseFatal _
  | undefined15 => exact drawFree_raiseFatal _

/-- A completed step fetched, which looks at the pc and memory only, and completed an instruction. -/
theorem drawFree_step : DrawFree step := by
  intro s t n h ht
  have hs := fault_of_step h
  by_cases hp : s.pc.toNat < 65535
  · rw [step_of_fetch hs (fetch_eq hp)] at h
    rw [step_of_fetch (s := s.withDraws n) hs (fetch_eq hp)]
    exact drawFree_exec _ s t n h ht
  · rw [step_fetch_error hs (Nat.not_lt.1 hp)] at h
    exact absurd ht (raiseFatal_not_completed h)

/-- Settles O42: free values enter a state only together with an error in its latch. -/
theorem completedPulsesUseNoFreeValue : Obligations.CompletedPulsesUseNoFreeValue :=
  drawFree_step

end Sys2Proof.Machine
end

section
/-! Push and the conditional branches, and RET after a taken one (44_control_flow.md sections 1 to 3). -/

namespace Sys2Proof.Machine

open Sys2Proof

/-! ### Push -/

/-- Settles O34: with room a push is one memory write at stackLast and an exact increment; without room it fails. -/
theorem pushWritesThenIncrements : Obligations.PushWritesThenIncrements := by
  refine fun s v hs => ⟨fun hroom => ⟨_, push_room hroom v, ?_⟩, fun hfull => push_full hfull v⟩
  exact ⟨word_of_mem_write hs rfl, memKeptExcept_of_mem_write rfl, succ_stackLast_toNat hroom, fun _ => rfl, rfl, rfl⟩

/-! ### The four branches -/

/-- PC0 is pushed as its low sixteen bits (log 8). -/
theorem pcWord_toNat (s : State) : s.pcWord.toNat = s.pc.toNat % 65536 := BitVec.toNat_setWidth 16 s.pc

/-- The state after a push of PC0 and a jump is that of a taken branch. -/
theorem takesBranch_of_room {s : State} (hs : s.mem.wf) (hroom : s.stackLast.toNat < 65536) (target : Word) :
    TakesBranch target s (State.jumpTo
      { s with mem := s.mem.write s.stackLast.toNat s.pcWord, stackLast := s.stackLast + 1 } target) := by
  refine ⟨?_, memKeptExcept_of_mem_write rfl, succ_stackLast_toNat hroom, jumpTo_pc_toNat _ target, fun _ => rfl, rfl⟩
  rw [word_of_mem_write hs rfl, pcWord_toNat]

/-- A row is a branch on `cond` once its opcode selects it and its instruction is the shared operand check followed by the
shared branch, on a test of the two words that says `cond` of them as unsigned integers. -/
theorem branchRule_of_test {opc : Nat} {mk : OperandCode → OperandCode → Word → Instr} {cond : Nat → Nat → Prop}
    {test : Word → Word → Bool}
    (hdecode : ∀ w0 w1, (opcodeField w0).toNat = opc → decode w0 w1 = mk (operand1Field w0) (operand2Field w0) w1)
    (hexec : ∀ c1 c2 w1 s,
      exec (mk c1 c2 w1) s = withOperands c1 c2 s fun o => branchWhen (test o.op1 o.op2) w1 s)
    (htest : ∀ a b : Word, test a b = true ↔ cond a.toNat b.toNat) : BranchRule opc mk cond := by
  refine ⟨commonRule_of_withOperands hdecode fun c1 c2 w1 s => ⟨_, hexec c1 c2 w1 s⟩, fun r1 r2 target s hs => ?_⟩
  rw [hexec, withOperands_codes, ← htest]
  rcases branchWhen_cases (test (s.reg r1) (s.reg r2)) target s with ⟨ht, hx⟩ | ⟨ht, hroom, hx⟩ | ⟨ht, hfull, hx⟩
  · rw [ht] at hx ⊢
    exact ⟨fun _ => ⟨_, hx, onlyAdvances_advance s⟩, nofun, nofun⟩
  · rw [ht] at hx ⊢
    exact ⟨fun h => absurd rfl h, fun _ _ => ⟨_, hx, takesBranch_of_room hs hroom target⟩,
      fun _ hfull => absurd hroom (Nat.not_lt.2 hfull)⟩
  · rw [ht] at hx ⊢
    exact ⟨fun h => absurd rfl h, fun _ hroom => absurd hroom (Nat.not_lt.2 hfull),
      fun _ _ => hx ▸ raises_raiseFatal .outOfBounds s⟩

/-- Opcodes 6 to 9 select the branch rows, with w1 as the target (30_encoding.md R64, R66). -/
theorem decode_branch (w0 w1 : Word) :
    let c1 := operand1Field w0
    let c2 := operand2Field w0
    ((opcodeField w0).toNat = 6 → decode w0 w1 = .branchEqual c1 c2 w1) ∧
    ((opcodeField w0).toNat = 7 → decode w0 w1 = .branchNotEqual c1 c2 w1) ∧
    ((opcodeField w0).toNat = 8 → decode w0 w1 = .branchLess c1 c2 w1) ∧
    ((opcodeField w0).toNat = 9 → decode w0 w1 = .branchGreater c1 c2 w1) := by
  refine ⟨fun h => ?_, fun h => ?_, fun h => ?_, fun h => ?_⟩ <;> simp [decode, h]

/-- Settles O30: each of the four rows is the shared branch on its own comparison of words. -/
theorem branchesCompareAndPush : Obligations.BranchesCompareAndPush :=
  ⟨branchRule_of_test (fun w0 w1 => (decode_branch w0 w1).1) exec_branchEqual
      fun a b => by simp [condEqual, BitVec.toNat_inj],
    branchRule_of_test (fun w0 w1 => (decode_branch w0 w1).2.1) exec_branchNotEqual
      fun a b => by simp [condNotEqual, BitVec.toNat_inj],
    branchRule_of_test (fun w0 w1 => (decode_branch w0 w1).2.2.1) exec_branchLess fun a b => decide_eq_true_iff,
    branchRule_of_test (fun w0 w1 => (decode_branch w0 w1).2.2.2) exec_branchGreater fun a b => decide_eq_true_iff⟩

/-! ### RET after a taken branch -/

/-- The pc of a fetched instruction fits a word, so a push and a jump bring it back whole (log 8). -/
theorem pcWord_setWidth {s : State} (h : s.pc.toNat < 65536) : s.pcWord.setWidth 17 = s.pc := by
  apply BitVec.eq_of_toNat_eq
  rw [BitVec.toNat_setWidth_of_le (by decide), pcWord_toNat, Nat.mod_eq_of_lt h]

/-- Settles O37: the branch leaves stackLast one up, so the pop reads the slot it wrote, which holds its address. -/
theorem retResumesAtTheBranch : Obligations.RetResumesAtTheBranch := by
  intro i s t r1 r2 hs _ hp hb hx ht
  obtain ⟨-, hc⟩ := completes_of_exec hx ht
  obtain ⟨hroom, hmem, hstack, hregs⟩ := hc.of_takesBranch hb
  have htop : t.stackLast.toNat = s.stackLast.toNat + 1 := by rw [hstack, succ_stackLast_toNat hroom]
  have hslot : t.popSlot = s.stackLast := by
    apply BitVec.eq_of_toNat_eq
    rw [popSlot_toNat, htop, Nat.add_sub_cancel]
  have hword : t.word s.stackLast.toNat = s.pcWord := word_of_mem_write hs hmem
  refine ⟨_, exec_ret_codes r1 r2 (by omega), ?_, hslot, hword, reg_congr hregs⟩
  rw [jumpTo_pc, hslot, hword, pcWord_setWidth (by omega)]

end Sys2Proof.Machine
end

section
/-! Stores seen by loads and fetches, and what a completed instruction leaves unchanged (20_memory.md sections 3 and 4,
10_state.md sections 2 and 5). -/

namespace Sys2Proof.Machine

open Sys2Proof

/-! ### Stores -/

/-- Settles O36: the load's address register still holds the address of the store. -/
theorem storeThenLoadReturnsValue : Obligations.StoreThenLoadReturnsValue := by
  refine fun rv ra rd s hs => ⟨_, _, exec_storeWord_codes rv ra s, exec_loadWord_codes rd ra _, ?_, fun m hm => ?_⟩
  · rw [reg_setReg_advance]
    exact word_of_mem_write hs rfl
  · rw [advance_reg, reg_setReg_other hm]
    rfl

/-- What a state reads after a write at `a`. -/
theorem word_of_mem_write_eq {s t : State} (hs : s.mem.wf) {a : Nat} {v : Word} (ht : t.mem = s.mem.write a v) (b : Nat) :
    t.word b = if a = b then v else s.word b := by
  split
  · subst b
    exact word_of_mem_write hs ht
  · exact memKeptExcept_of_mem_write ht b (Ne.symm ‹_›)

/-- Settles O38: the store is done before the next fetch, two words on. -/
theorem nextFetchSeesTheStore : Obligations.NextFetchSeesTheStore := by
  intro r1 r2 s hs hp
  obtain ⟨t, hx, hmem, hpc⟩ : ∃ t, exec (.storeWord (codeOf r1) (codeOf r2)) s = .next t ∧
      t.mem = s.mem.write (s.reg r2).toNat (s.reg r1) ∧ t.pc = s.advance.pc :=
    ⟨_, exec_storeWord_codes r1 r2 s, rfl, rfl⟩
  have hpc' : t.pc.toNat = s.pc.toNat + 2 := by rw [hpc, advance_pc_toNat (by omega)]
  refine ⟨t, hx, ?_⟩
  rw [fetch_eq (by omega), hpc', word_of_mem_write_eq hs hmem, word_of_mem_write_eq hs hmem]

/-! ### Frames -/

/-- Settles O39: a completed instruction writes no register, or the one its operand1 names. -/
theorem onlyOperandOneIsWritten : Obligations.OnlyOperandOneIsWritten := by
  intro i s t _ hx ht n hn
  obtain ⟨-, hc⟩ := completes_of_exec hx ht
  cases hc with
  | advance => rfl
  | register d v hd =>
    have hne : n ≠ d := by
      rintro rfl
      exact hn _ hd rfl
    rw [advance_reg, reg_setReg_other hne]
  | store => rfl
  | branch => rfl
  | jump => rfl
  | ret => rfl

/-- A taken branch stores at stackLast: it is no STORE_WORD. -/
theorem storeAddress_of_takesBranch {i : Instr} {s : State} (h : takesBranch i s = true) :
    storeAddress i s = some s.stackLast.toNat := by
  unfold storeAddress
  split
  · cases h
  · exact if_pos h

/-- Settles O40: a completed instruction writes no memory, or one word at its store address. -/
theorem onlyStoresAndPushesWriteMemory : Obligations.OnlyStoresAndPushesWriteMemory := by
  intro i s t _ hx ht a ha
  obtain ⟨-, hc⟩ := completes_of_exec hx ht
  cases hc with
  | advance => rfl
  | register => rfl
  | store c1 c2 b v hi hb =>
    have hne : a ≠ b.toNat := by
      rintro rfl
      exact ha hb
    exact memKeptExcept_of_mem_write rfl a hne
  | branch target hb =>
    have hne : a ≠ s.stackLast.toNat := by
      rintro rfl
      exact ha (storeAddress_of_takesBranch hb)
    exact memKeptExcept_of_mem_write rfl a hne
  | jump => rfl
  | ret => rfl

/-- Settles O41: of the ways to complete only a taken branch and RET move stackLast. -/
theorem onlyBranchesAndRetMoveTheStack : Obligations.OnlyBranchesAndRetMoveTheStack := by
  intro i s t _ hx ht
  obtain ⟨-, hc⟩ := completes_of_exec hx ht
  cases hc with
  | advance => exact .inr (.inr rfl)
  | register => exact .inr (.inr rfl)
  | store => exact .inr (.inr rfl)
  | branch target hb hroom => exact .inl ⟨hb, succ_stackLast_toNat hroom⟩
  | jump => exact .inr (.inr rfl)
  | ret c1 c2 hi => exact .inr (.inl ⟨⟨c1, c2, hi⟩, popSlot_toNat s⟩)

end Sys2Proof.Machine
end

section
/-! Runs of many pulses: zeroed memory and the stop idiom (70_reset_and_hazards.md sections 2 and 4). -/

namespace Sys2Proof.Machine

open Sys2Proof

/-- A pair of zero words is a NOP of valid operand codes: an unlatched core that fetches it only advances
(70_reset_and_hazards.md R199). -/
theorem step_zero_pair {s : State} (hs : s.fault = none) (hp : s.pc.toNat < 65535) (h0 : s.word s.pc.toNat = 0)
    (h1 : s.word (s.pc.toNat + 1) = 0) : step s = .next s.advance := by
  have hd : decode 0 0 = .nop (codeOf ⟨.r, 0⟩) (codeOf ⟨.r, 0⟩) := by decide
  rw [step_of_fetch hs (fetch_eq hp), h0, h1, hd, exec_nop, withOperands_codes]

/-- Over 2k zero words k pulses only advance the pc by 2k. -/
theorem run_zero_words (k : Nat) {s : State} (hs : s.fault = none) (hp : s.pc.toNat + 2 * k ≤ 65536)
    (hzero : ∀ a, s.pc.toNat ≤ a → a < s.pc.toNat + 2 * k → s.word a = 0) :
    ∃ t, Sys2Proof.core.run k s = .next t ∧ t.pc.toNat = s.pc.toNat + 2 * k ∧ RegsKept s t ∧ MemKept s t ∧
      CursorAndLatchKept s t := by
  induction k generalizing s with
  | zero => exact ⟨s, run_zero s, rfl, fun _ => rfl, fun _ => rfl, rfl, rfl⟩
  | succ k ih =>
    have hstep : step s = .next s.advance :=
      step_zero_pair hs (by omega) (hzero _ (by omega) (by omega)) (hzero _ (by omega) (by omega))
    have hpc : s.advance.pc.toNat = s.pc.toNat + 2 := advance_pc_toNat (by omega)
    obtain ⟨t, hrun, htpc, hregs, hmem, hkept⟩ :=
      ih (s := s.advance) hs (by omega) fun a _ _ => hzero a (by omega) (by omega)
    exact ⟨t, (run_succ hstep k).trans hrun, by omega, hregs, hmem, hkept⟩

/-- Settles O43: after the k NOPs the latch is still NONE, and at 65536 the next fetch fails. -/
theorem zeroMemoryRunsAsNops : Obligations.ZeroMemoryRunsAsNops := by
  intro k s hs hp hzero
  obtain ⟨t, hrun, hpc, hregs, hmem, hstack, hfault⟩ := run_zero_words k hs hp hzero
  have ht : t.fault = none := hfault.trans hs
  refine ⟨⟨t, hrun, ht⟩, t, hrun, hpc, hregs, hmem, ⟨hstack, hfault⟩, fun hend => ?_⟩
  have hlast : step t = raiseFatal .outOfBounds t := step_fetch_error ht (by omega)
  rw [run_add hrun 1, run_succ hlast 0, run_zero]
  exact raises_raiseFatal .outOfBounds t

/-- A jump to its own address changes nothing: the pc fits a word. -/
theorem jumpTo_self {s : State} (hp : s.pc.toNat < 65536) : s.jumpTo (BitVec.ofNat 16 s.pc.toNat) = s := by
  have hpc : (BitVec.ofNat 16 s.pc.toNat).setWidth 17 = s.pc := pcWord_setWidth hp
  rw [State.jumpTo, hpc]

/-- Settles O44, by induction on the pulses: each step leaves the state itself. -/
theorem jumpToItselfStaysPut : Obligations.JumpToItselfStaysPut := by
  intro k s r1 r2 hs hp hd
  have hstep : step s = .next s := by
    rw [step_of_fetch hs (fetch_eq hp), hd, exec_jump_codes, jumpTo_self (by omega)]
  induction k with
  | zero => exact run_zero s
  | succ k ih => exact (run_succ hstep k).trans ih

end Sys2Proof.Machine
end

section
/-! The five host commands, and runs of them (70_reset_and_hazards.md section 1, 20_memory.md section 1). -/

namespace Sys2Proof.Machine

open Sys2Proof

/-! ### PULSE, RESET and SNAPSHOT -/

/-- Settles O45: PULSE returns the code of the latch its step leaves, or of the latch it found. -/
theorem pulseCommandSteps : Obligations.PulseCommandSteps := by
  refine fun s => ⟨fun hs => ?_, fun k => runCommand_pulse_latched⟩
  obtain ⟨t, hstep⟩ := (everyPulseAnswersAState s).2 hs
  refine ⟨t, hstep, fun ht => ?_, fun e ht => ?_⟩ <;> rw [runCommand_pulse_of_step hstep, ht, codeOfLatch]

/-- Settles O47: RESET leaves zeroed memory with the pc at 0, where the next pulse is a NOP. -/
theorem resetCommandClearsAll : Obligations.ResetCommandClearsAll := by
  intro s
  have hstep : step s.resetKeepingDraws = .next s.resetKeepingDraws.advance :=
    step_zero_pair rfl (Nat.zero_lt_succ _) rfl rfl
  exact ⟨s.resetKeepingDraws, s.resetKeepingDraws.advance, rfl, rfl, get_zero, read_nil, rfl, rfl, rfl,
    runCommand_pulse_of_step hstep, rfl⟩

/-- Settles O50: what is shown are the state's own fields. -/
theorem snapshotShowsTheState : Obligations.SnapshotShowsTheState :=
  fun s => ⟨takeSnapshot s, rfl, fun _ => rfl, fun _ => rfl, rfl, rfl⟩

/-- Settles O53: each code has the number of the table. -/
theorem resultCodeNumbers : Obligations.ResultCodeNumbers := ⟨rfl, rfl, rfl, rfl, rfl⟩

/-! ### LOAD -/

/-- A sequence written from `a` up leaves every address past its end as it reads. -/
theorem read_writeAll_above (words : List Word) (m : Memory) {a b : Nat} (hb : a + words.length ≤ b) :
    (m.writeAll a words).read b = m.read b := by
  induction words generalizing m a with
  | nil => rfl
  | cons v rest ih =>
    rw [List.length_cons] at hb
    rw [Memory.writeAll, ih _ (by omega), read_write_other (by omega)]

/-- A sequence that fits is read back word for word. -/
theorem read_writeAll_getElem {words : List Word} {m : Memory} (hm : m.wf) {a : Nat} (ha : a + words.length ≤ 65536)
    {k : Nat} (hk : k < words.length) : (m.writeAll a words).read (a + k) = words[k] := by
  induction words generalizing m a k with
  | nil => cases hk
  | cons v rest ih =>
    rw [List.length_cons] at ha hk
    rw [Memory.writeAll]
    cases k with
    | zero => exact (read_writeAll_below rest _ _ (by omega)).trans (read_write_same hm a v)
    | succ k =>
      rw [show a + (k + 1) = a + 1 + k by omega, List.getElem_cons_succ]
      exact ih (write_wf hm (by omega) v) (by omega) (by omega)

/-- LOAD returns the state and the result of `loadImage`. -/
theorem runCommand_load {words : List Word} {offset : Nat} {s t : State} {code : ResultCode}
    (h : loadImage words offset s = (t, code)) : runCommand (.load words offset) s = .next (t, .result code) := by
  rw [runCommand, h]

/-- On an unlatched core an image that fits is copied (70_reset_and_hazards.md R195). -/
theorem loadImage_of_fits {words : List Word} {offset : Nat} {s : State} (hfit : offset + words.length ≤ 65536)
    (hs : s.fault = none) : loadImage words offset s = ({ s with mem := s.mem.writeAll offset words }, .ok) := by
  simp [loadImage, hfit, hs]

/-- On a latched core an image that fits leaves memory unspecified (log 12). -/
theorem loadImage_of_latched {words : List Word} {offset : Nat} {s : State} {e : ErrorKind}
    (hfit : offset + words.length ≤ 65536) (hs : s.fault = some e) :
    loadImage words offset s = (s.redrawMem, .ok) := by
  simp [loadImage, hfit, hs]

/-- An image that does not fit is not copied at all (70_reset_and_hazards.md R195, decision D12). -/
theorem loadImage_of_beyond {words : List Word} {offset : Nat} (hfit : 65536 < offset + words.length) (s : State) :
    loadImage words offset s = (s, .outOfBounds) := by
  simp [loadImage, Nat.not_le.2 hfit]

/-- Settles O48: an image that fits is written from `offset` up, and the default offset is 0. -/
theorem loadCommandCopies : Obligations.LoadCommandCopies := by
  refine fun words offset s => ⟨fun hm hs hfit => ?_, fun e he hfit => ?_, fun hbeyond => ?_, rfl⟩
  · refine ⟨_, runCommand_load (loadImage_of_fits hfit hs), fun k hk => read_writeAll_getElem hm hfit hk, fun a ha => ?_,
      fun _ => rfl, ⟨rfl, rfl⟩, rfl⟩
    rcases ha with ha | ha
    · exact read_writeAll_below words _ _ ha
    · exact read_writeAll_above words _ ha
  · exact ⟨_, runCommand_load (loadImage_of_latched hfit he), he⟩
  · exact runCommand_load (loadImage_of_beyond hbeyond s)

/-! ### LOAD_REGS -/

/-- LOAD_REGS returns the state and the result of `loadRegisters`. -/
theorem runCommand_loadRegs {bank : BitVec 2} {values : Vector Word 16} {s t : State} {code : ResultCode}
    (h : loadRegisters bank values s = (t, code)) : runCommand (.loadRegs bank values) s = .next (t, .result code) := by
  rw [runCommand, h]

/-- On an unlatched core a valid bank is set (70_reset_and_hazards.md R194). -/
theorem loadRegisters_of_bank {bank : BitVec 2} {b : Bank} (hb : bankOfBits bank = .ok b) (values : Vector Word 16)
    {s : State} (hs : s.fault = none) :
    loadRegisters bank values s = ({ s with regs := s.regs.setBank b values }, .ok) := by
  simp [loadRegisters, hb, hs]

/-- On a latched core a valid bank leaves the registers unspecified (log 12). -/
theorem loadRegisters_of_latched {bank : BitVec 2} {b : Bank} (hb : bankOfBits bank = .ok b) (values : Vector Word 16)
    {s : State} {e : ErrorKind} (hs : s.fault = some e) : loadRegisters bank values s = (s.redrawRegs, .ok) := by
  simp [loadRegisters, hb, hs]

/-- A bank that fails writes nothing (70_reset_and_hazards.md R194, decision D11). -/
theorem loadRegisters_of_error {bank : BitVec 2} {e : ErrorKind} (hb : bankOfBits bank = .error e)
    (values : Vector Word 16) (s : State) : loadRegisters bank values s = (s, codeOfKind e) := by
  simp [loadRegisters, hb]

/-- Settles O49: a bank's code names it, its registers take the values in index order, and code 3 names no bank. -/
theorem loadRegsSetsOneBank : Obligations.LoadRegsSetsOneBank := by
  refine fun values s => ⟨fun b hs => ?_, fun b e hs => ?_, ?_⟩
  · refine ⟨_, runCommand_loadRegs (loadRegisters_of_bank (bankOfBits_bankCode b) values hs), fun i => ?_, fun n hn => ?_,
      fun _ => rfl, ⟨rfl, rfl⟩, rfl⟩
    · exact (get_setBank ..).trans (if_pos rfl)
    · exact (get_setBank ..).trans (if_neg hn)
  · exact ⟨_, runCommand_loadRegs (loadRegisters_of_latched (bankOfBits_bankCode b) values hs), hs⟩
  · exact runCommand_loadRegs (loadRegisters_of_error (e := .invalidOperand) rfl values s)

/-! ### Runs of commands -/

/-- LOAD neither sets nor clears the latch. -/
theorem loadImage_fault (words : List Word) (offset : Nat) (s : State) :
    (loadImage words offset s).1.fault = s.fault := by
  by_cases hfit : offset + words.length ≤ 65536
  · cases hs : s.fault with
    | none => rw [loadImage_of_fits hfit hs]; exact hs
    | some e => rw [loadImage_of_latched hfit hs]; exact hs
  · rw [loadImage_of_beyond (Nat.not_le.1 hfit)]

/-- LOAD_REGS neither sets nor clears the latch. -/
theorem loadRegisters_fault (bank : BitVec 2) (values : Vector Word 16) (s : State) :
    (loadRegisters bank values s).1.fault = s.fault := by
  cases hb : bankOfBits bank with
  | error e => rw [loadRegisters_of_error hb]
  | ok b =>
    cases hs : s.fault with
    | none => rw [loadRegisters_of_bank hb values hs]; exact hs
    | some e => rw [loadRegisters_of_latched hb values hs]; exact hs

/-- A command other than RESET keeps a set latch (10_state.md section 4). -/
theorem runCommand_keeps_latch {c : Command} {s t : State} {k : ErrorKind} {r : Reply} (hs : s.fault = some k)
    (hc : c ≠ .reset) (h : runCommand c s = .next (t, r)) : t.fault = some k := by
  cases c with
  | pulse => rw [runCommand_pulse_latched hs] at h; cases h; exact hs
  | reset => exact absurd rfl hc
  | load words offset => cases h; exact (loadImage_fault ..).trans hs
  | loadRegs bank values => cases h; exact (loadRegisters_fault ..).trans hs
  | snapshot => cases h; exact hs

/-- A run goes on from the state its first command leaves. -/
theorem runCommands_cons {c : Command} {s t : State} {r : Reply} (h : runCommand c s = .next (t, r))
    (cs : List Command) {u : State} {rs : List Reply} :
    runCommands (c :: cs) s = .next (u, rs) ↔ ∃ rs', runCommands cs t = .next (u, rs') ∧ rs = r :: rs' := by
  simp only [runCommands, h]
  cases runCommands cs t with
  | fault why => simp
  | refused why => simp
  | next p =>
    obtain ⟨v, rs'⟩ := p
    constructor
    · intro h; cases h; exact ⟨rs', rfl, rfl⟩
    · rintro ⟨_, h, rfl⟩; cases h; rfl

/-- LOAD keeps the invariant: it leaves a canonical memory, and pc and stackLast as they are. -/
theorem inv_loadImage {s : State} (hs : s.Inv) (words : List Word) (offset : Nat) :
    (loadImage words offset s).1.Inv := by
  have ⟨hmem, hpc, hstack⟩ := hs
  by_cases hfit : offset + words.length ≤ 65536
  · cases hf : s.fault with
    | none => rw [loadImage_of_fits hfit hf]; exact ⟨writeAll_wf hmem hfit, hpc, hstack⟩
    | some e => rw [loadImage_of_latched hfit hf]; exact ⟨freeMemory_wf _, hpc, hstack⟩
  · rw [loadImage_of_beyond (Nat.not_le.1 hfit)]
    exact hs

/-- LOAD_REGS keeps the invariant: it writes registers only. -/
theorem inv_loadRegisters {s : State} (hs : s.Inv) (bank : BitVec 2) (values : Vector Word 16) :
    (loadRegisters bank values s).1.Inv := by
  cases hb : bankOfBits bank with
  | error e => rw [loadRegisters_of_error hb]; exact hs
  | ok b =>
    cases hf : s.fault with
    | none => rw [loadRegisters_of_bank hb values hf]; exact hs
    | some e => rw [loadRegisters_of_latched hb values hf]; exact hs

/-- Every command answers a state, and keeps the invariant. -/
theorem runCommand_inv (c : Command) {s : State} (hs : s.Inv) : ∃ t r, runCommand c s = .next (t, r) ∧ t.Inv := by
  cases c with
  | pulse =>
    cases hf : s.fault with
    | some k => exact ⟨s, _, runCommand_pulse_latched hf, hs⟩
    | none =>
      obtain ⟨t, hstep⟩ := (everyPulseAnswersAState s).2 hf
      exact ⟨t, _, runCommand_pulse_of_step hstep, stepKeepsInvariant s t hs hstep⟩
  | reset => exact ⟨_, _, rfl, resetMeetsInvariant⟩
  | load words offset => exact ⟨_, _, rfl, inv_loadImage hs words offset⟩
  | loadRegs bank values => exact ⟨_, _, rfl, inv_loadRegisters hs bank values⟩
  | snapshot => exact ⟨_, _, rfl, hs⟩

/-- Settles O51, by induction on the commands: each of them keeps the latch. -/
theorem onlyResetClearsTheLatch : Obligations.OnlyResetClearsTheLatch := by
  intro cs
  induction cs with
  | nil => intro s t k rs hs _ h; cases h; exact hs
  | cons c cs ih =>
    intro s t k rs hs hreset h
    obtain ⟨hc, hcs⟩ := not_or.1 (mt List.mem_cons.2 hreset)
    cases hx : runCommand c s with
    | fault why => simp [runCommands, hx] at h
    | refused why => simp [runCommands, hx] at h
    | next p =>
      obtain ⟨u, r⟩ := p
      obtain ⟨rs', hrest, -⟩ := (runCommands_cons hx cs).1 h
      exact ih u t k rs' (runCommand_keeps_latch hs (Ne.symm hc) hx) hcs hrest

/-- Settles O52, by induction on the commands: each of them answers a state that meets the invariant. -/
theorem commandRunsKeepInvariant : Obligations.CommandRunsKeepInvariant := by
  intro cs
  induction cs with
  | nil => exact fun s hs => ⟨s, [], rfl, rfl, hs⟩
  | cons c cs ih =>
    intro s hs
    obtain ⟨t, r, hx, ht⟩ := runCommand_inv c hs
    obtain ⟨u, rs, hrest, hlen, hu⟩ := ih t ht
    exact ⟨u, r :: rs, (runCommands_cons hx cs).2 ⟨rs, hrest, rfl⟩, congrArg (· + 1) hlen, hu⟩

/-! ### Images -/

/-- The two bytes of a word, high byte first, stand for it under the big-endian order (20_memory.md R40). -/
theorem wordOfBytes_big (w : Word) : wordOfBytes .big (w.extractLsb' 8 8) (w.extractLsb' 0 8) = w := by
  have happend : w.extractLsb' 8 8 ++ w.extractLsb' 0 8 = w.extractLsb' 0 16 :=
    BitVec.extractLsb'_append_extractLsb'_eq_extractLsb' rfl
  exact happend.trans BitVec.extractLsb'_eq_self

/-- Settles O54, by induction on the words: the first two bytes are the first word. -/
theorem imageIsBigEndian : Obligations.ImageIsBigEndian := by
  refine ⟨rfl, fun words => ?_⟩
  induction words with
  | nil => rfl
  | cons w words ih =>
    rw [List.flatMap_cons, List.cons_append, List.cons_append, List.nil_append, imageWords, ih]
    exact congrArg (fun v => some (v :: words)) (wordOfBytes_big w)

end Sys2Proof.Machine
end
